-- ==== Sys2Proof/Word.lean ====
section
/-! DEFINITION. The byte of the register file: the only word the hardware moves (spec/20_memory.md R63). -/

namespace Sys2Proof

/-- One register cell, one address operand and one value operand are eight bits wide (R20, R61). -/
abbrev Byte := BitVec 8

end Sys2Proof
end

