-- ==== Sys2Proof/Syntax.lean ====
section
/-! DEFINITION. The operations of the hardware: one constructor of `Instr` per row of spec/opcode_table.json,
with the operands as fields (spec/30_encoding.md R80: "A model represents an operation as a constructor of an
inductive type with the operands as fields"). -/

namespace Sys2Proof

/-- The three tone channels A, B, C, numbered c = 0, 1, 2 (R10). -/
inductive Channel where
  | A | B | C
  deriving DecidableEq, Repr

/-- Channel numbers, R10. -/
def Channel.num : Channel → Nat
  | .A => 0
  | .B => 1
  | .C => 2

/-- The operand of TICK.  R250: an unsigned 64-bit count at the hardware boundary; R257, R292: a host wrapper may
take a signed count and then rejects a negative one with E_ARG. -/
inductive CycleCount where
  /-- the count of the hardware boundary, R250 -/
  | unsigned (n : BitVec 64)
  /-- the count of a signed host wrapper, 64-bit two's complement (assumption log entry 5) -/
  | signed (n : BitVec 64)
  deriving DecidableEq, Repr

/-- The key of one entry of a field map: the 36 names of R274, and any other name. -/
inductive Field where
  | reg (a : Fin 16)
  | tonePeriod (c : Channel)
  | toneCounter (c : Channel)
  | toneOut (c : Channel)
  | noiseLfsr
  | noisePeriod
  | noiseCounter
  | noiseOut
  | envPeriod
  | envCounter
  | envLevel
  | envShape
  | envHolding
  | envAttacking
  | mclk
  /-- a field that R274 does not name; IMPORT_STATE ignores it (R273) -/
  | other (code : Byte)
  deriving DecidableEq, Repr

/-- The field map of EXPORT_STATE and IMPORT_STATE: "a flat mapping of named fields to integers/booleans" (R274).
A Boolean stands as 0 or 1, as R274's range column has it (assumption log entry 6). -/
abbrev FieldMap := List (Field × Int)

/-- Every row of spec/opcode_table.json. -/
inductive Instr where
  -- format WR: one write operation per register (R81, R111 to R126)
  | writeR0 (v : Byte)
  | writeR1 (v : Byte)
  | writeR2 (v : Byte)
  | writeR3 (v : Byte)
  | writeR4 (v : Byte)
  | writeR5 (v : Byte)
  | writeR6 (v : Byte)
  | writeR7 (v : Byte)
  | writeR8 (v : Byte)
  | writeR9 (v : Byte)
  | writeR10 (v : Byte)
  | writeR11 (v : Byte)
  | writeR12 (v : Byte)
  | writeR13 (v : Byte)
  | writeR14 (v : Byte)
  | writeR15 (v : Byte)
  /-- the common rule R110, with the address as an operand -/
  | writeReg (a v : Byte)
  | readReg (a : Byte)
  -- the other host operations (R80)
  | tick (n : CycleCount)
  | sample
  | reset
  | exportState
  | importState (m : FieldMap)
  | getLfsrState
  -- format INT: the internal operations
  | toneSetPeriod (c : Channel)
  | toneUpdate (c : Channel)
  | toneOut (c : Channel)
  | toneReset (c : Channel)
  | noiseSetPeriod
  | noiseUpdate
  | lfsrStep (x : BitVec 17)
  | noiseOut
  | noiseReset
  | envSetPeriod
  | envSetShape
  | envUpdate
  | envStep
  | envLevel
  | envReset
  | volLookup (level : BitVec 4)
  | mixActive (c : Channel)
  | mixLevel (c : Channel)
  | mixChannel (c : Channel)
  | mixSum
  | prescaleCycle
  -- format SH: the value byte of a write to R[13]; x is its ignored high nibble (R91, R98)
  | shape0 (x : BitVec 4)
  | shape1 (x : BitVec 4)
  | shape2 (x : BitVec 4)
  | shape3 (x : BitVec 4)
  | shape4 (x : BitVec 4)
  | shape5 (x : BitVec 4)
  | shape6 (x : BitVec 4)
  | shape7 (x : BitVec 4)
  | shape8 (x : BitVec 4)
  | shape9 (x : BitVec 4)
  | shapeA (x : BitVec 4)
  | shapeB (x : BitVec 4)
  | shapeC (x : BitVec 4)
  | shapeD (x : BitVec 4)
  | shapeE (x : BitVec 4)
  | shapeF (x : BitVec 4)
  -- the pseudo-operations of R103; the operand ranges are those for which the expansion can be written
  | wtp (c : Channel) (p : BitVec 12)
  | wep (p : BitVec 16)
  | tu (k : BitVec 60)
  | eu (k : BitVec 56)
  deriving DecidableEq, Repr

end Sys2Proof
end

