-- ==== Sys2Proof/WellFormed.lean ====
section
/-! DEFINITION. Which terms of `Instr` are operations: the operand types bound every operand but the field map of
IMPORT_STATE, whose canonical form is checked here (spec/47_host_ops.md R274; assumption log entry 6). -/

namespace Sys2Proof

/-- The place of a field in R274's table, read row by row; the names the table lacks follow it.
It orders a field map and is its key's byte in a request (assumption log entry 3). -/
def Field.code : Field → Nat
  | .reg a => a.val
  | .tonePeriod c => 16 + c.num
  | .toneCounter c => 19 + c.num
  | .toneOut c => 22 + c.num
  | .noiseLfsr => 25
  | .noisePeriod => 26
  | .noiseCounter => 27
  | .noiseOut => 28
  | .envPeriod => 29
  | .envCounter => 30
  | .envLevel => 31
  | .envShape => 32
  | .envHolding => 33
  | .envAttacking => 34
  | .mclk => 35
  | .other code => code.toNat

/-- A field outside R274 has a code of its own, so that a code names one field. -/
def Field.wf : Field → Bool
  | .other code => decide (36 ≤ code.toNat)
  | .reg _ | .tonePeriod _ | .toneCounter _ | .toneOut _ => true
  | .noiseLfsr | .noisePeriod | .noiseCounter | .noiseOut => true
  | .envPeriod | .envCounter | .envLevel | .envShape | .envHolding | .envAttacking | .mclk => true

/-- The value of one entry can be written in the nine bytes a request gives it; this is wider than every range of
R274 on both sides, so that an out-of-range value can be asked for. -/
def fieldValueFits (v : Int) : Bool := decide (-(2 ^ 71) ≤ v ∧ v < 2 ^ 71)

/-- A map is a list of entries in rising order of code, so a field stands in it at most once. -/
def FieldMap.rising : FieldMap → Bool
  | [] => true
  | [_] => true
  | (f, _) :: (g, w) :: rest => decide (f.code < g.code) && FieldMap.rising ((g, w) :: rest)

def FieldMap.wf (m : FieldMap) : Bool :=
  m.all (fun e => e.1.wf && fieldValueFits e.2) && FieldMap.rising m

/-- Well-formed operations. -/
def Instr.wf : Instr → Bool
  | .importState m => FieldMap.wf m
  | .writeR0 _ | .writeR1 _ | .writeR2 _ | .writeR3 _ | .writeR4 _ | .writeR5 _ | .writeR6 _ | .writeR7 _ => true
  | .writeR8 _ | .writeR9 _ | .writeR10 _ | .writeR11 _ | .writeR12 _ | .writeR13 _ | .writeR14 _ => true
  | .writeR15 _ | .writeReg _ _ | .readReg _ => true
  | .tick _ | .sample | .reset | .exportState | .getLfsrState => true
  | .toneSetPeriod _ | .toneUpdate _ | .toneOut _ | .toneReset _ => true
  | .noiseSetPeriod | .noiseUpdate | .lfsrStep _ | .noiseOut | .noiseReset => true
  | .envSetPeriod | .envSetShape | .envUpdate | .envStep | .envLevel | .envReset => true
  | .volLookup _ | .mixActive _ | .mixLevel _ | .mixChannel _ | .mixSum | .prescaleCycle => true
  | .shape0 _ | .shape1 _ | .shape2 _ | .shape3 _ | .shape4 _ | .shape5 _ | .shape6 _ | .shape7 _ => true
  | .shape8 _ | .shape9 _ | .shapeA _ | .shapeB _ | .shapeC _ | .shapeD _ | .shapeE _ | .shapeF _ => true
  | .wtp _ _ | .wep _ | .tu _ | .eu _ => true

abbrev Instr.WellFormed (i : Instr) : Prop := i.wf = true

end Sys2Proof
end

