-- ==== Sys2Proof/Decode.lean ====
section
/-! DEFINITION. Requests as bytes: the decoder, total on any bytes, and the encoder after it.

The spec gives bits to the WR word (R81), the RD word (R82) and the shape byte (R98), and no encoding to any other
operation (R80).  A request of the model is one byte that names the FORMAT (R80 to R82, R103: WR, RD, TK, N0, BL,
INT, SH, pseudo) and then the operands; the WR, RD and SH operands are the spec's own words.  The format byte and the
operand layouts of the other formats are the model's (DESIGN CHOICE, assumption log entry 3). -/

namespace Sys2Proof

/-- Why bytes are no request.  Each is raised by `decode` alone. -/
inductive DecodeError where
  /-- no byte at all -/
  | empty
  /-- the bytes end inside an operand -/
  | truncated
  /-- the first byte names no format -/
  | unknownFormat (b : Byte)
  /-- the second byte names no operation of the format -/
  | unknownOperation (b : Byte)
  /-- a channel operand other than 0, 1, 2 -/
  | badChannel (b : Byte)
  /-- an operand with a bit set above its width -/
  | operandTooWide
  /-- a field map that is not in its canonical form -/
  | badFieldMap
  deriving DecidableEq, Repr

abbrev Decoded (α : Type) := Except DecodeError (α × List Byte)

/-! ### Operands -/

def takeByte : List Byte → Decoded Byte
  | [] => .error .truncated
  | b :: rest => .ok (b, rest)

/-- `n` bytes as a number, the least significant first (assumption log entry 3). -/
def takeLE : Nat → List Byte → Decoded Nat
  | 0, bs => .ok (0, bs)
  | _ + 1, [] => .error .truncated
  | n + 1, b :: rest =>
    match takeLE n rest with
    | .ok (x, rest') => .ok (b.toNat + 256 * x, rest')
    | .error e => .error e

/-- A `w`-bit operand in `n` bytes, its unused high bits zero. -/
def takeBits (w n : Nat) (bs : List Byte) : Decoded (BitVec w) :=
  match takeLE n bs with
  | .ok (x, rest) => if x < 2 ^ w then .ok (BitVec.ofNat w x, rest) else .error .operandTooWide
  | .error e => .error e

def takeChannel : List Byte → Decoded Channel
  | [] => .error .truncated
  | b :: rest =>
    match b.toNat with
    | 0 => .ok (.A, rest)
    | 1 => .ok (.B, rest)
    | 2 => .ok (.C, rest)
    | _ => .error (.badChannel b)

/-- The field a key byte names: R274's 36 in its order, then the names R274 lacks. -/
def fieldOfCode (b : Byte) : Field :=
  if h : b.toNat < 16 then .reg ⟨b.toNat, h⟩ else
  match b.toNat with
  | 16 => .tonePeriod .A
  | 17 => .tonePeriod .B
  | 18 => .tonePeriod .C
  | 19 => .toneCounter .A
  | 20 => .toneCounter .B
  | 21 => .toneCounter .C
  | 22 => .toneOut .A
  | 23 => .toneOut .B
  | 24 => .toneOut .C
  | 25 => .noiseLfsr
  | 26 => .noisePeriod
  | 27 => .noiseCounter
  | 28 => .noiseOut
  | 29 => .envPeriod
  | 30 => .envCounter
  | 31 => .envLevel
  | 32 => .envShape
  | 33 => .envHolding
  | 34 => .envAttacking
  | 35 => .mclk
  | _ => .other b

/-- One entry of a field map: the key byte and nine bytes of two's complement. -/
def takeEntry : List Byte → Decoded (Field × Int)
  | [] => .error .truncated
  | b :: rest =>
    match takeLE 9 rest with
    | .ok (x, rest') => .ok ((fieldOfCode b, (BitVec.ofNat 72 x).toInt), rest')
    | .error e => .error e

def takeEntries : Nat → List Byte → Decoded FieldMap
  | 0, bs => .ok ([], bs)
  | n + 1, bs =>
    match takeEntry bs with
    | .ok (e, rest) =>
      match takeEntries n rest with
      | .ok (m, rest') => .ok (e :: m, rest')
      | .error x => .error x
    | .error x => .error x

/-- A field map: the number of entries in two bytes, then the entries; only the canonical form is a map. -/
def takeFieldMap (bs : List Byte) : Decoded FieldMap :=
  match takeLE 2 bs with
  | .ok (n, rest) =>
    match takeEntries n rest with
    | .ok (m, rest') => if FieldMap.wf m then .ok (m, rest') else .error .badFieldMap
    | .error e => .error e
  | .error e => .error e

/-- The operation of a decoded operand. -/
def thenInstr {α : Type} (d : Decoded α) (f : α → Instr) : Decoded Instr :=
  match d with
  | .ok (x, rest) => .ok (f x, rest)
  | .error e => .error e

/-! ### Words with bits of the spec's own -/

/-- The WR word (R81): "The address selects one of 16 write operations WRITE_R0 .. WRITE_R15; an address with any of
bits 7..4 set selects none and raises E_ADDR", which is WRITE_REG's meaning there (R110). -/
def instrOfWr (a v : Byte) : Instr :=
  match a.toNat with
  | 0 => .writeR0 v
  | 1 => .writeR1 v
  | 2 => .writeR2 v
  | 3 => .writeR3 v
  | 4 => .writeR4 v
  | 5 => .writeR5 v
  | 6 => .writeR6 v
  | 7 => .writeR7 v
  | 8 => .writeR8 v
  | 9 => .writeR9 v
  | 10 => .writeR10 v
  | 11 => .writeR11 v
  | 12 => .writeR12 v
  | 13 => .writeR13 v
  | 14 => .writeR14 v
  | 15 => .writeR15 v
  | _ => .writeReg a v

/-- The shape byte `xxxxCAaH` (R91, R98): bits 3..0 select the code, bits 7..4 are ignored. -/
def instrOfShape (v : Byte) : Instr :=
  let x : BitVec 4 := v.extractLsb' 4 4
  match (v.extractLsb' 0 4).toNat with
  | 0 => .shape0 x
  | 1 => .shape1 x
  | 2 => .shape2 x
  | 3 => .shape3 x
  | 4 => .shape4 x
  | 5 => .shape5 x
  | 6 => .shape6 x
  | 7 => .shape7 x
  | 8 => .shape8 x
  | 9 => .shape9 x
  | 10 => .shapeA x
  | 11 => .shapeB x
  | 12 => .shapeC x
  | 13 => .shapeD x
  | 14 => .shapeE x
  | _ => .shapeF x

/-! ### The formats -/

def decodeWr : List Byte → Decoded Instr
  | a :: v :: rest => .ok (instrOfWr a v, rest)
  | _ => .error .truncated

def decodeWriteReg : List Byte → Decoded Instr
  | a :: v :: rest => .ok (.writeReg a v, rest)
  | _ => .error .truncated

def decodeRd (bs : List Byte) : Decoded Instr := thenInstr (takeByte bs) .readReg

def decodeTk : List Byte → Decoded Instr
  | [] => .error .truncated
  | b :: rest =>
    match b.toNat with
    | 0 => thenInstr (takeBits 64 8 rest) (fun n => .tick (.unsigned n))
    | 1 => thenInstr (takeBits 64 8 rest) (fun n => .tick (.signed n))
    | _ => .error (.unknownOperation b)

def decodeN0 : List Byte → Decoded Instr
  | [] => .error .truncated
  | b :: rest =>
    match b.toNat with
    | 0 => .ok (.sample, rest)
    | 1 => .ok (.reset, rest)
    | 2 => .ok (.exportState, rest)
    | 3 => .ok (.getLfsrState, rest)
    | _ => .error (.unknownOperation b)

def decodeBl (bs : List Byte) : Decoded Instr := thenInstr (takeFieldMap bs) .importState

def decodeInt : List Byte → Decoded Instr
  | [] => .error .truncated
  | b :: rest =>
    match b.toNat with
    | 0 => thenInstr (takeChannel rest) .toneSetPeriod
    | 1 => thenInstr (takeChannel rest) .toneUpdate
    | 2 => thenInstr (takeChannel rest) .toneOut
    | 3 => thenInstr (takeChannel rest) .toneReset
    | 4 => .ok (.noiseSetPeriod, rest)
    | 5 => .ok (.noiseUpdate, rest)
    | 6 => thenInstr (takeBits 17 3 rest) .lfsrStep
    | 7 => .ok (.noiseOut, rest)
    | 8 => .ok (.noiseReset, rest)
    | 9 => .ok (.envSetPeriod, rest)
    | 10 => .ok (.envSetShape, rest)
    | 11 => .ok (.envUpdate, rest)
    | 12 => .ok (.envStep, rest)
    | 13 => .ok (.envLevel, rest)
    | 14 => .ok (.envReset, rest)
    | 15 => thenInstr (takeBits 4 1 rest) .volLookup
    | 16 => thenInstr (takeChannel rest) .mixActive
    | 17 => thenInstr (takeChannel rest) .mixLevel
    | 18 => thenInstr (takeChannel rest) .mixChannel
    | 19 => .ok (.mixSum, rest)
    | 20 => .ok (.prescaleCycle, rest)
    | _ => .error (.unknownOperation b)

def decodeSh (bs : List Byte) : Decoded Instr := thenInstr (takeByte bs) instrOfShape

def decodeWtp (bs : List Byte) : Decoded Instr :=
  match takeChannel bs with
  | .ok (c, rest) => thenInstr (takeBits 12 2 rest) (.wtp c)
  | .error e => .error e

def decodePseudo : List Byte → Decoded Instr
  | [] => .error .truncated
  | b :: rest =>
    match b.toNat with
    | 0 => decodeWtp rest
    | 1 => thenInstr (takeBits 16 2 rest) .wep
    | 2 => thenInstr (takeBits 60 8 rest) .tu
    | 3 => thenInstr (takeBits 56 8 rest) .eu
    | _ => .error (.unknownOperation b)

/-- One request from the front of the bytes, and the bytes after it. -/
def decode : List Byte → Decoded Instr
  | [] => .error .empty
  | f :: rest =>
    match f.toNat with
    | 0 => decodeWr rest
    | 1 => decodeRd rest
    | 2 => decodeTk rest
    | 3 => decodeN0 rest
    | 4 => decodeBl rest
    | 5 => decodeInt rest
    | 6 => decodeSh rest
    | 7 => decodePseudo rest
    | 8 => decodeWriteReg rest
    | _ => .error (.unknownFormat f)

/-! ### The table's words -/

/-- The request that a word of spec/opcode_table.json stands for.  A 16-bit word is a WR word, address first
(R81, R100: `W 7, 0x3E` is `073E`).  An 8-bit word with bits 7..4 clear is an RD word (R82); the READ_REG row fixes
those bits at 0, so an 8-bit word with one of them set matches no row but its shape code's (assumption log entry 4).
The table gives no word of another length; such bits are no request. -/
def tableRequest (nbits w : Nat) : List Byte :=
  match nbits with
  | 16 => [0, BitVec.ofNat 8 (w / 256), BitVec.ofNat 8 w]
  | 8 => if w % 256 < 16 then [1, BitVec.ofNat 8 w] else [6, BitVec.ofNat 8 w]
  | _ => [0xFF]

/-- The instruction of a table word. -/
def decodeTableWord (nbits w : Nat) : Option Instr :=
  match decode (tableRequest nbits w) with
  | .ok (i, []) => some i
  | _ => none

/-! ### The encoder -/

/-- A number in `n` bytes, the least significant first. -/
def putLE : Nat → Nat → List Byte
  | 0, _ => []
  | n + 1, x => BitVec.ofNat 8 x :: putLE n (x / 256)

def putBits {w : Nat} (n : Nat) (v : BitVec w) : List Byte := putLE n v.toNat

def putChannel (c : Channel) : Byte := BitVec.ofNat 8 c.num

def putEntry (e : Field × Int) : List Byte :=
  BitVec.ofNat 8 e.1.code :: putLE 9 (BitVec.ofInt 72 e.2).toNat

def putEntries : FieldMap → List Byte
  | [] => []
  | e :: m => putEntry e ++ putEntries m

def putFieldMap (m : FieldMap) : List Byte := putLE 2 m.length ++ putEntries m

/-- The shape byte: the ignored nibble above the code (R98). -/
def putShape (x code : BitVec 4) : List Byte := [6, x ++ code]

/-- The request of a well-formed operation. -/
def encode : Instr → List Byte
  | .writeR0 v => [0, 0, v]
  | .writeR1 v => [0, 1, v]
  | .writeR2 v => [0, 2, v]
  | .writeR3 v => [0, 3, v]
  | .writeR4 v => [0, 4, v]
  | .writeR5 v => [0, 5, v]
  | .writeR6 v => [0, 6, v]
  | .writeR7 v => [0, 7, v]
  | .writeR8 v => [0, 8, v]
  | .writeR9 v => [0, 9, v]
  | .writeR10 v => [0, 10, v]
  | .writeR11 v => [0, 11, v]
  | .writeR12 v => [0, 12, v]
  | .writeR13 v => [0, 13, v]
  | .writeR14 v => [0, 14, v]
  | .writeR15 v => [0, 15, v]
  | .writeReg a v => [8, a, v]
  | .readReg a => [1, a]
  | .tick (.unsigned n) => 2 :: 0 :: putBits 8 n
  | .tick (.signed n) => 2 :: 1 :: putBits 8 n
  | .sample => [3, 0]
  | .reset => [3, 1]
  | .exportState => [3, 2]
  | .getLfsrState => [3, 3]
  | .importState m => 4 :: putFieldMap m
  | .toneSetPeriod c => [5, 0, putChannel c]
  | .toneUpdate c => [5, 1, putChannel c]
  | .toneOut c => [5, 2, putChannel c]
  | .toneReset c => [5, 3, putChannel c]
  | .noiseSetPeriod => [5, 4]
  | .noiseUpdate => [5, 5]
  | .lfsrStep x => 5 :: 6 :: putBits 3 x
  | .noiseOut => [5, 7]
  | .noiseReset => [5, 8]
  | .envSetPeriod => [5, 9]
  | .envSetShape => [5, 10]
  | .envUpdate => [5, 11]
  | .envStep => [5, 12]
  | .envLevel => [5, 13]
  | .envReset => [5, 14]
  | .volLookup level => 5 :: 15 :: putBits 1 level
  | .mixActive c => [5, 16, putChannel c]
  | .mixLevel c => [5, 17, putChannel c]
  | .mixChannel c => [5, 18, putChannel c]
  | .mixSum => [5, 19]
  | .prescaleCycle => [5, 20]
  | .shape0 x => putShape x 0x0
  | .shape1 x => putShape x 0x1
  | .shape2 x => putShape x 0x2
  | .shape3 x => putShape x 0x3
  | .shape4 x => putShape x 0x4
  | .shape5 x => putShape x 0x5
  | .shape6 x => putShape x 0x6
  | .shape7 x => putShape x 0x7
  | .shape8 x => putShape x 0x8
  | .shape9 x => putShape x 0x9
  | .shapeA x => putShape x 0xA
  | .shapeB x => putShape x 0xB
  | .shapeC x => putShape x 0xC
  | .shapeD x => putShape x 0xD
  | .shapeE x => putShape x 0xE
  | .shapeF x => putShape x 0xF
  | .wtp c p => 7 :: 0 :: putChannel c :: putBits 2 p
  | .wep p => 7 :: 1 :: putBits 2 p
  | .tu k => 7 :: 2 :: putBits 8 k
  | .eu k => 7 :: 3 :: putBits 8 k

end Sys2Proof
end

