-- ==== Sys2Proof/Machine/State.lean ====
section
/-! DEFINITION. The state: `Psg` is exactly spec/10_state.md R20 ("One core instance holds exactly the following state
and nothing else"); `State` adds the model's own two ports, the requests the host has issued and the last reply.
The widths are those of R20's table; the reset values are R46 to R50. -/

namespace Sys2Proof.Machine

/-- A tone generator, R22, R23, R25. -/
structure Tone where
  period  : BitVec 12
  counter : BitVec 12
  out     : Bool
  deriving DecidableEq, Repr

/-- The noise generator, R26 to R29; `out` is a latch of its own, not a bit of `lfsr` (R29, R340). -/
structure Noise where
  lfsr    : BitVec 17
  period  : BitVec 5
  counter : BitVec 5
  out     : Bool
  deriving DecidableEq, Repr

/-- The envelope generator, R30 to R35; the shape bits are functions of `shape` (R36). -/
structure Env where
  period    : BitVec 16
  counter   : BitVec 16
  level     : BitVec 4
  shape     : BitVec 4
  holding   : Bool
  attacking : Bool
  deriving DecidableEq, Repr

/-- The whole state of the hardware, R20: 337 bits. -/
structure Psg where
  /-- the register file `R[0..15]`, R21 -/
  regs  : Vector Byte 16
  /-- `tone[0]` -/
  toneA : Tone
  /-- `tone[1]` -/
  toneB : Tone
  /-- `tone[2]` -/
  toneC : Tone
  noise : Noise
  env   : Env
  /-- the master-clock counter, R37 -/
  mclk  : BitVec 64
  deriving DecidableEq, Repr

/-- The three errors an operation can report, with the value each records (R290). -/
inductive HwError where
  /-- addressing error of WRITE_REG and READ_REG (R291): the address -/
  | eAddr (a : Byte)
  /-- invalid argument of a signed TICK (R292): the count -/
  | eArg (n : Int)
  /-- state-import error (R293): the first missing or out-of-range field in R274's order -/
  | eImport (f : Field)
  deriving DecidableEq, Repr

/-- What the last completed operation handed back to the host.  A port of the model, not state of the hardware: no
operation reads it (R296: "no state element records that an error happened"; assumption log entry 2). -/
inductive Reply where
  /-- nothing has completed yet -/
  | idle
  /-- completed, with no result -/
  | done
  /-- READ_REG's byte -/
  | byte (v : Byte)
  /-- TICK's cycle count -/
  | cycles (n : BitVec 64)
  /-- SAMPLE's triple and mean -/
  | sample (pcm0 pcm1 pcm2 mean : Rat)
  /-- EXPORT_STATE's field map -/
  | fields (m : FieldMap)
  /-- GET_LFSR_STATE's and LFSR_STEP's value -/
  | lfsr (x : BitVec 17)
  /-- a one-bit result of an internal read -/
  | bit (b : Bool)
  /-- a level of an internal read -/
  | level (l : BitVec 4)
  /-- an exact number of the volume table or the mixer -/
  | number (q : Rat)
  /-- the operation reported an error and did nothing else (R295) -/
  | error (e : HwError)
  deriving DecidableEq, Repr

/-- A fault would be a stop of the machine.  There is none: "A host operation either completes or reports exactly one
of three errors; there is no other abnormal outcome" (R290), and an error is a reply, after which the hardware keeps
running (R296, R305).  No one raises a fault. -/
inductive Fault where
  deriving DecidableEq, Repr

/-- Why a step has no meaning. -/
inductive Refusal where
  /-- raised by an arm of `exec` whose instruction has no meaning in the model: no arm does.  Safe. -/
  | notModelled (mnemonic : String)
  /-- raised by `step` alone, when the pending bytes are no request of the model's own byte format; the hardware takes
  operations, not bytes (R80), so no operation is refused by it.  Safe. -/
  | malformedRequest (e : DecodeError)
  deriving DecidableEq, Repr

/-- The machine: the hardware, the requests not yet run (the next one first), and the last reply.  The two ports are
the model's own (assumption log entry 2). -/
structure State where
  psg      : Psg
  requests : List Byte
  reply    : Reply
  deriving DecidableEq, Repr

/-! ### Reset values -/

/-- R47. -/
def Tone.atReset : Tone := { period := 1, counter := 0, out := false }

/-- R48. -/
def Noise.atReset : Noise := { lfsr := 0x1FFFF, period := 1, counter := 0, out := false }

/-- R49. -/
def Env.atReset : Env :=
  { period := 1, counter := 0, level := 15, shape := 0, holding := false, attacking := false }

/-- R46 to R50: the one state that RESET, construction and power-on all give (R320). -/
def Psg.atReset : Psg :=
  { regs := Vector.replicate 16 0
    toneA := Tone.atReset
    toneB := Tone.atReset
    toneC := Tone.atReset
    noise := Noise.atReset
    env := Env.atReset
    mclk := 0 }

/-- The machine right after reset: no request is pending and nothing has been replied (assumption log entry 2). -/
def State.reset : State := { psg := Psg.atReset, requests := [], reply := .idle }

end Sys2Proof.Machine
end

