-- ==== Sys2Proof/Machine/Params.lean ====
section
/-! DEFINITION. The parameters of spec/00_scope.md R6 that the spec has decided and that a model may carry
(spec/92_eei_decisions.md, "Open parameters, in one place").  The open parameter `VOL` is Config.lean's. -/

namespace Sys2Proof.Machine

/-- `ENV_HOLD_ALT_FLIP`, decided `false` (D10). -/
def envHoldAltFlip : Bool := false

/-- `REG_READBACK`: `false` is `raw`, as decided (D6); `true` is `masked`. -/
def regReadbackMasked : Bool := false

/-- The divider of the tone and noise generators (R5). -/
def toneDivider : Nat := 16

/-- The divider of the envelope generator (R5). -/
def envDivider : Nat := 256

end Sys2Proof.Machine
end

