-- ==== Sys2Proof/Machine/Ops.lean ====
section
/-! DEFINITION. Access to the register file and the generators, completing an operation, and reporting an error. -/

namespace Sys2Proof.Machine

/-! ### The register file: the only address space (R60) -/

/-- `R[a]` (R8). -/
def Psg.reg (p : Psg) (a : Fin 16) : Byte := p.regs[a]

/-- `R[a] <- v`: all eight bits are stored (R21). -/
def Psg.setReg (p : Psg) (a : Fin 16) (v : Byte) : Psg := { p with regs := p.regs.set a v }

/-- The cell an address operand selects: none above 15, "never wrapped or masked to 4 bits" (R61). -/
def cellOf (a : Byte) : Option (Fin 16) := if h : a.toNat < 16 then some ⟨a.toNat, h⟩ else none

/-! ### The generators by channel -/

def Psg.tone (p : Psg) : Channel → Tone
  | .A => p.toneA
  | .B => p.toneB
  | .C => p.toneC

def Psg.setTone (p : Psg) (c : Channel) (t : Tone) : Psg :=
  match c with
  | .A => { p with toneA := t }
  | .B => { p with toneB := t }
  | .C => { p with toneC := t }

/-- Tone fine register `R[2c]` (R10). -/
def fineReg : Channel → Fin 16
  | .A => 0
  | .B => 2
  | .C => 4

/-- Tone coarse register `R[2c+1]` (R10). -/
def coarseReg : Channel → Fin 16
  | .A => 1
  | .B => 3
  | .C => 5

/-- Volume register `R[8+c]` (R10). -/
def volReg : Channel → Fin 16
  | .A => 8
  | .B => 9
  | .C => 10

/-! ### The end of an operation -/

/-- The operation completes: the hardware is in state `p` and the host gets `r`.  The requests behind it stay. -/
def State.complete (s : State) (p : Psg) (r : Reply) : Host.Outcome State Fault Refusal :=
  .next { s with psg := p, reply := r }

/-- The operation only reads: it completes with `r` and writes no state. -/
def State.answer (s : State) (r : Reply) : Host.Outcome State Fault Refusal := s.complete s.psg r

/-- Error entry (R295): "every state element has the value it had before the operation began", "the operation returns
the error and no other result", and control is with the caller.  There is no return operation (R296): the next
request runs as if this one had never been issued. -/
def State.raise (s : State) (e : HwError) : Host.Outcome State Fault Refusal := s.answer (.error e)

end Sys2Proof.Machine
end

