-- ==== Sys2Proof/Machine/Operands.lean ====
section
/-! DEFINITION. Numbers assembled from register bytes (spec/30_encoding.md R84 to R97) and the clamp of periods. -/

namespace Sys2Proof.Machine

/-- `clamp1(v) = max(1, v)` (R8): "value 0 is coerced to 1" (R22, R102). -/
def clamp1 {w : Nat} (v : BitVec w) : BitVec w := if v = 0 then 1 else v

/-- Bits 3..0 of a byte. -/
def lowNibble (v : Byte) : BitVec 4 := v.extractLsb' 0 4

/-- TP(c) (R93): the coarse register's low four bits above the fine register. -/
def tonePeriodField (p : Psg) (c : Channel) : BitVec 12 :=
  lowNibble (p.reg (coarseReg c)) ++ p.reg (fineReg c)

/-- NP (R94). -/
def noisePeriodField (p : Psg) : BitVec 5 := (p.reg 6).extractLsb' 0 5

/-- EP (R95): "unlike tone, coarse here is a full 8 bits". -/
def envPeriodField (p : Psg) : BitVec 16 := p.reg 12 ++ p.reg 11

/-- SH (R96). -/
def shapeField (p : Psg) : BitVec 4 := lowNibble (p.reg 13)

/-- `R[7][c]`: 1 removes the tone from channel c (R87, R97). -/
def toneDisabled (p : Psg) (c : Channel) : Bool := (p.reg 7).getLsbD c.num

/-- `R[7][c+3]`: 1 removes the noise from channel c (R87, R97). -/
def noiseDisabled (p : Psg) (c : Channel) : Bool := (p.reg 7).getLsbD (c.num + 3)

/-- `R[8+c][4]`: 1 takes the channel's level from the envelope (R88, R97). -/
def envMode (p : Psg) (c : Channel) : Bool := (p.reg (volReg c)).getLsbD 4

/-- `R[8+c] & 0xF` (R88, R97). -/
def fixedLevel (p : Psg) (c : Channel) : BitVec 4 := lowNibble (p.reg (volReg c))

/-- The bits of a register the hardware gives a meaning, R62's width column as D6's mask. -/
def widthMask (a : Fin 16) : Byte :=
  match a.val with
  | 1 | 3 | 5 | 13 => 0x0F
  | 6 | 8 | 9 | 10 => 0x1F
  | _ => 0xFF

/-- The byte READ_REG returns from a stored byte (R75, D6): the stored byte itself under `raw`. -/
def readback (masked : Bool) (a : Fin 16) (v : Byte) : Byte := if masked then v &&& widthMask a else v

end Sys2Proof.Machine
end

