-- ==== Sys2Proof/Machine/Flags.lean ====
section
/-! DEFINITION. One-bit conditions: when a generator fires, the shape bits, and the boundary event.  The hardware has
no condition codes (R42); its one-bit state elements are written by the generators' own rules. -/

namespace Sys2Proof.Machine

/-- A generator fires in an update exactly when its counter is at most 1 before it (R24). -/
def fires {w : Nat} (counter : BitVec w) : Bool := decide (counter.toNat ≤ 1)

/-- `HOLD = shape[0]` (R36). -/
def holdBit (shape : BitVec 4) : Bool := shape.getLsbD 0

/-- `ALT = shape[1]` (R36). -/
def altBit (shape : BitVec 4) : Bool := shape.getLsbD 1

/-- `ATT = shape[2]` (R36). -/
def attackBit (shape : BitVec 4) : Bool := shape.getLsbD 2

/-- `CONT = shape[3]` (R36). -/
def contBit (shape : BitVec 4) : Bool := shape.getLsbD 3

/-- The condition of a boundary event (R184), on the state before a firing update: the step would leave 0..15. -/
def atBoundary (e : Env) : Bool :=
  !e.holding && ((e.attacking && e.level == 15) || (!e.attacking && e.level == 0))

/-- The level a shape write restarts from: the extreme it moves away from (R181). -/
def startLevel (attack : Bool) : BitVec 4 := if attack then 0 else 15

end Sys2Proof.Machine
end

