-- ==== Sys2Proof/Machine/Envelope.lean ====
section
/-! DEFINITION. The envelope generator (spec/43_envelope.md). -/

namespace Sys2Proof.Machine

/-- ENV_SET_PERIOD, R180. -/
def setEnvPeriod (p : Psg) : Psg := { p with env := { p.env with period := clamp1 (envPeriodField p) } }

/-- The restart of a shape write, R181: counter and period keep their values. -/
def Env.restart (e : Env) (shape : BitVec 4) : Env :=
  { e with
    shape := shape
    attacking := attackBit shape
    level := startLevel (attackBit shape)
    holding := false }

/-- ENV_SET_SHAPE, R181. -/
def setEnvShape (p : Psg) : Psg := { p with env := p.env.restart (shapeField p) }

/-- The shape-completion rule of a boundary event: the last arm of R183. -/
def Env.boundaryEvent (flip : Bool) (e : Env) : Env :=
  if !contBit e.shape then
    { e with holding := true, level := if holdBit e.shape then e.level else 0 }
  else if holdBit e.shape then
    { e with holding := true, level := if altBit e.shape && flip then 15 - e.level else e.level }
  else if altBit e.shape then
    { e with attacking := !e.attacking }
  else
    { e with level := if e.attacking then 0 else 15 }

/-- ENV_STEP, R183; `flip` is `ENV_HOLD_ALT_FLIP`. -/
def Env.step (flip : Bool) (e : Env) : Env :=
  if e.holding then e
  else if atBoundary e then e.boundaryEvent flip
  else if e.attacking then { e with level := e.level + 1 }
  else { e with level := e.level - 1 }

/-- ENV_UPDATE, R182: "counter reloads to period regardless of branch taken". -/
def Env.update (flip : Bool) (e : Env) : Env :=
  if fires e.counter then { e.step flip with counter := e.period }
  else { e with counter := e.counter - 1 }

/-- ENV_STEP on the hardware, with the decided parameter. -/
def stepEnv (p : Psg) : Psg := { p with env := p.env.step envHoldAltFlip }

/-- ENV_UPDATE on the hardware, with the decided parameter. -/
def updateEnv (p : Psg) : Psg := { p with env := p.env.update envHoldAltFlip }

/-- ENV_RESET, R186. -/
def resetEnv (p : Psg) : Psg :=
  { p with env := { period := 1, counter := 0, level := 15, shape := 0, holding := false, attacking := false } }

def execEnvSetPeriod (s : State) : Host.Outcome State Fault Refusal :=
  s.complete (setEnvPeriod s.psg) .done

def execEnvSetShape (s : State) : Host.Outcome State Fault Refusal :=
  s.complete (setEnvShape s.psg) .done

def execEnvUpdate (s : State) : Host.Outcome State Fault Refusal :=
  s.complete (updateEnv s.psg) .done

def execEnvStep (s : State) : Host.Outcome State Fault Refusal :=
  s.complete (stepEnv s.psg) .done

/-- ENV_LEVEL, R185. -/
def execEnvLevel (s : State) : Host.Outcome State Fault Refusal := s.answer (.level s.psg.env.level)

def execEnvReset (s : State) : Host.Outcome State Fault Refusal :=
  s.complete (resetEnv s.psg) .done

end Sys2Proof.Machine
end

