-- ==== Sys2Proof/Machine/Noise.lean ====
section
/-! DEFINITION. The noise generator (spec/42_noise.md). -/

namespace Sys2Proof.Machine

/-- NOISE_SET_PERIOD, R160. -/
def setNoisePeriod (p : Psg) : Psg :=
  { p with noise := { p.noise with period := clamp1 (noisePeriodField p) } }

/-- LFSR_STEP, R162: taps at bits 0 and 3 of the old value, shifted right by one, the new bit into bit 16. -/
def lfsrStep (x : BitVec 17) : BitVec 17 :=
  let nb : Bool := x.getLsbD 0 ^^ x.getLsbD 3
  (x >>> 1) ||| ((BitVec.ofBool nb).setWidth 17 <<< 16)

/-- NOISE_UPDATE, R161, on the generator: the latch takes bit 0 of the NEW register value. -/
def Noise.update (n : Noise) : Noise :=
  if fires n.counter then
    { n with lfsr := lfsrStep n.lfsr, out := (lfsrStep n.lfsr).getLsbD 0, counter := n.period }
  else { n with counter := n.counter - 1 }

/-- NOISE_UPDATE, R161. -/
def updateNoise (p : Psg) : Psg := { p with noise := p.noise.update }

/-- NOISE_RESET, R165. -/
def resetNoise (p : Psg) : Psg :=
  { p with noise := { lfsr := 0x1FFFF, period := 1, counter := 0, out := false } }

def execNoiseSetPeriod (s : State) : Host.Outcome State Fault Refusal :=
  s.complete (setNoisePeriod s.psg) .done

def execNoiseUpdate (s : State) : Host.Outcome State Fault Refusal :=
  s.complete (updateNoise s.psg) .done

/-- LFSR_STEP(x), R162: a pure function, so only the value is returned. -/
def execLfsrStep (x : BitVec 17) (s : State) : Host.Outcome State Fault Refusal :=
  s.answer (.lfsr (lfsrStep x))

/-- NOISE_OUT, R163. -/
def execNoiseOut (s : State) : Host.Outcome State Fault Refusal := s.answer (.bit s.psg.noise.out)

/-- GET_LFSR_STATE, R164. -/
def execGetLfsrState (s : State) : Host.Outcome State Fault Refusal := s.answer (.lfsr s.psg.noise.lfsr)

def execNoiseReset (s : State) : Host.Outcome State Fault Refusal :=
  s.complete (resetNoise s.psg) .done

end Sys2Proof.Machine
end

