-- ==== Sys2Proof/Machine/Tone.lean ====
section
/-! DEFINITION. The tone generators (spec/41_tone.md). -/

namespace Sys2Proof.Machine

/-- TONE_SET_PERIOD(c), R140: counter and output keep their values. -/
def setTonePeriod (c : Channel) (p : Psg) : Psg :=
  p.setTone c { p.tone c with period := clamp1 (tonePeriodField p c) }

/-- TONE_UPDATE, R141, on one generator. -/
def Tone.update (t : Tone) : Tone :=
  if fires t.counter then { t with out := !t.out, counter := t.period }
  else { t with counter := t.counter - 1 }

/-- TONE_UPDATE(c), R141. -/
def updateTone (c : Channel) (p : Psg) : Psg := p.setTone c (p.tone c).update

/-- TONE_RESET(c), R143. -/
def resetTone (c : Channel) (p : Psg) : Psg := p.setTone c { period := 1, counter := 0, out := false }

def execToneSetPeriod (c : Channel) (s : State) : Host.Outcome State Fault Refusal :=
  s.complete (setTonePeriod c s.psg) .done

def execToneUpdate (c : Channel) (s : State) : Host.Outcome State Fault Refusal :=
  s.complete (updateTone c s.psg) .done

/-- TONE_OUT(c), R142. -/
def execToneOut (c : Channel) (s : State) : Host.Outcome State Fault Refusal :=
  s.answer (.bit (s.psg.tone c).out)

def execToneReset (c : Channel) (s : State) : Host.Outcome State Fault Refusal :=
  s.complete (resetTone c s.psg) .done

end Sys2Proof.Machine
end

