-- ==== Sys2Proof/Machine/RegisterOps.lean ====
section
/-! DEFINITION. WRITE_REG, one operation per register, and READ_REG (spec/40_register_ops.md). -/

namespace Sys2Proof.Machine

/-- The side effect of a write to address `a`, R110 and R62's last column; it runs after the store. -/
def writeEffect (a : Fin 16) (p : Psg) : Psg :=
  match a.val with
  | 0 | 1 => setTonePeriod .A p
  | 2 | 3 => setTonePeriod .B p
  | 4 | 5 => setTonePeriod .C p
  | 6 => setNoisePeriod p
  | 11 | 12 => setEnvPeriod p
  | 13 => setEnvShape p
  | _ => p

/-- A write to a cell that exists, R110: the store, then the side effect. -/
def writeCell (a : Fin 16) (v : Byte) (p : Psg) : Psg := writeEffect a (p.setReg a v)

/-- WRITE_REG(a, v), R110. -/
def execWriteReg (a v : Byte) (s : State) : Host.Outcome State Fault Refusal :=
  match cellOf a with
  | some i => s.complete (writeCell i v s.psg) .done
  | none => s.raise (.eAddr a)

/-- WRITE_R0, R111. -/
def execWriteR0 (v : Byte) (s : State) : Host.Outcome State Fault Refusal := s.complete (writeCell 0 v s.psg) .done

/-- WRITE_R1, R112. -/
def execWriteR1 (v : Byte) (s : State) : Host.Outcome State Fault Refusal := s.complete (writeCell 1 v s.psg) .done

/-- WRITE_R2, R113. -/
def execWriteR2 (v : Byte) (s : State) : Host.Outcome State Fault Refusal := s.complete (writeCell 2 v s.psg) .done

/-- WRITE_R3, R114. -/
def execWriteR3 (v : Byte) (s : State) : Host.Outcome State Fault Refusal := s.complete (writeCell 3 v s.psg) .done

/-- WRITE_R4, R115. -/
def execWriteR4 (v : Byte) (s : State) : Host.Outcome State Fault Refusal := s.complete (writeCell 4 v s.psg) .done

/-- WRITE_R5, R116. -/
def execWriteR5 (v : Byte) (s : State) : Host.Outcome State Fault Refusal := s.complete (writeCell 5 v s.psg) .done

/-- WRITE_R6, R117. -/
def execWriteR6 (v : Byte) (s : State) : Host.Outcome State Fault Refusal := s.complete (writeCell 6 v s.psg) .done

/-- WRITE_R7, R118. -/
def execWriteR7 (v : Byte) (s : State) : Host.Outcome State Fault Refusal := s.complete (writeCell 7 v s.psg) .done

/-- WRITE_R8, R119. -/
def execWriteR8 (v : Byte) (s : State) : Host.Outcome State Fault Refusal := s.complete (writeCell 8 v s.psg) .done

/-- WRITE_R9, R120. -/
def execWriteR9 (v : Byte) (s : State) : Host.Outcome State Fault Refusal := s.complete (writeCell 9 v s.psg) .done

/-- WRITE_R10, R121. -/
def execWriteR10 (v : Byte) (s : State) : Host.Outcome State Fault Refusal := s.complete (writeCell 10 v s.psg) .done

/-- WRITE_R11, R122. -/
def execWriteR11 (v : Byte) (s : State) : Host.Outcome State Fault Refusal := s.complete (writeCell 11 v s.psg) .done

/-- WRITE_R12, R123. -/
def execWriteR12 (v : Byte) (s : State) : Host.Outcome State Fault Refusal := s.complete (writeCell 12 v s.psg) .done

/-- WRITE_R13, R124. -/
def execWriteR13 (v : Byte) (s : State) : Host.Outcome State Fault Refusal := s.complete (writeCell 13 v s.psg) .done

/-- WRITE_R14, R125. -/
def execWriteR14 (v : Byte) (s : State) : Host.Outcome State Fault Refusal := s.complete (writeCell 14 v s.psg) .done

/-- WRITE_R15, R126. -/
def execWriteR15 (v : Byte) (s : State) : Host.Outcome State Fault Refusal := s.complete (writeCell 15 v s.psg) .done

/-- READ_REG(a), R127: the stored byte, and no state is written (R65). -/
def execReadReg (a : Byte) (s : State) : Host.Outcome State Fault Refusal :=
  match cellOf a with
  | some i => s.answer (.byte (readback regReadbackMasked i (s.psg.reg i)))
  | none => s.raise (.eAddr a)

end Sys2Proof.Machine
end

