-- ==== Sys2Proof/Machine/HostOps.lean ====
section
/-! DEFINITION. RESET, EXPORT_STATE and IMPORT_STATE (spec/47_host_ops.md). -/

namespace Sys2Proof.Machine

/-- R271, in its order; every state element is written. -/
def resetPsg (p : Psg) : Psg :=
  let p : Psg := { p with regs := Vector.replicate 16 0 }
  let p := resetTone .C (resetTone .B (resetTone .A p))
  let p := resetEnv (resetNoise p)
  { p with mclk := 0 }

/-- RESET, R271. -/
def execReset (s : State) : Host.Outcome State Fault Refusal := s.complete (resetPsg s.psg) .done

/-! ### The field map -/

/-- The 36 fields of R274, in its order. -/
def mapFields : List Field :=
  [.reg 0, .reg 1, .reg 2, .reg 3, .reg 4, .reg 5, .reg 6, .reg 7,
   .reg 8, .reg 9, .reg 10, .reg 11, .reg 12, .reg 13, .reg 14, .reg 15] ++
  [.tonePeriod .A, .tonePeriod .B, .tonePeriod .C,
   .toneCounter .A, .toneCounter .B, .toneCounter .C,
   .toneOut .A, .toneOut .B, .toneOut .C] ++
  [.noiseLfsr, .noisePeriod, .noiseCounter, .noiseOut] ++
  [.envPeriod, .envCounter, .envLevel, .envShape, .envHolding, .envAttacking, .mclk]

/-- A Boolean in a field map (assumption log entry 6). -/
def boolInt (b : Bool) : Int := if b then 1 else 0

/-- The value of a field (a name R274 lacks names no state element and is never exported). -/
def Psg.field (p : Psg) : Field → Int
  | .reg a => (p.reg a).toNat
  | .tonePeriod c => (p.tone c).period.toNat
  | .toneCounter c => (p.tone c).counter.toNat
  | .toneOut c => boolInt (p.tone c).out
  | .noiseLfsr => p.noise.lfsr.toNat
  | .noisePeriod => p.noise.period.toNat
  | .noiseCounter => p.noise.counter.toNat
  | .noiseOut => boolInt p.noise.out
  | .envPeriod => p.env.period.toNat
  | .envCounter => p.env.counter.toNat
  | .envLevel => p.env.level.toNat
  | .envShape => p.env.shape.toNat
  | .envHolding => boolInt p.env.holding
  | .envAttacking => boolInt p.env.attacking
  | .mclk => p.mclk.toNat
  | .other _ => 0

/-- The range column of R274, as lowest and highest value. -/
def fieldRange : Field → Int × Int
  | .reg _ => (0, 255)
  | .tonePeriod _ => (1, 4095)
  | .toneCounter _ => (0, 4095)
  | .toneOut _ => (0, 1)
  | .noiseLfsr => (0, 131071)
  | .noisePeriod => (1, 31)
  | .noiseCounter => (0, 31)
  | .noiseOut => (0, 1)
  | .envPeriod => (1, 65535)
  | .envCounter => (0, 65535)
  | .envLevel => (0, 15)
  | .envShape => (0, 15)
  | .envHolding => (0, 1)
  | .envAttacking => (0, 1)
  | .mclk => (0, 2 ^ 64 - 1)
  | .other _ => (0, 0)

/-- `m[f]`, or nothing where m lacks f. -/
def fieldOf : FieldMap → Field → Option Int
  | [], _ => none
  | (g, v) :: m, f => if g = f then some v else fieldOf m f

/-- The field is missing from m or out of its range (R273, R275). -/
def badField (m : FieldMap) (f : Field) : Bool :=
  match fieldOf m f with
  | some v => !decide ((fieldRange f).1 ≤ v ∧ v ≤ (fieldRange f).2)
  | none => true

/-- The field E_IMPORT names: the first bad one in the order of R274 (R273, R297). -/
def firstBadField (m : FieldMap) : Option Field := mapFields.find? (badField m)

/-- EXPORT_STATE's map. -/
def exportMap (p : Psg) : FieldMap := mapFields.map (fun f => (f, p.field f))

/-- The value a checked map gives a field. -/
def fieldVal (m : FieldMap) (f : Field) : Int := (fieldOf m f).getD 0

def fieldBits (w : Nat) (m : FieldMap) (f : Field) : BitVec w := BitVec.ofInt w (fieldVal m f)

def fieldBool (m : FieldMap) (f : Field) : Bool := decide (fieldVal m f = 1)

def importTone (m : FieldMap) (c : Channel) : Tone :=
  { period := fieldBits 12 m (.tonePeriod c)
    counter := fieldBits 12 m (.toneCounter c)
    out := fieldBool m (.toneOut c) }

/-- Every state element from m; nothing of the earlier state survives (R273). -/
def importPsg (m : FieldMap) : Psg :=
  { regs := Vector.ofFn (fun a => fieldBits 8 m (.reg a))
    toneA := importTone m .A
    toneB := importTone m .B
    toneC := importTone m .C
    noise :=
      { lfsr := fieldBits 17 m .noiseLfsr
        period := fieldBits 5 m .noisePeriod
        counter := fieldBits 5 m .noiseCounter
        out := fieldBool m .noiseOut }
    env :=
      { period := fieldBits 16 m .envPeriod
        counter := fieldBits 16 m .envCounter
        level := fieldBits 4 m .envLevel
        shape := fieldBits 4 m .envShape
        holding := fieldBool m .envHolding
        attacking := fieldBool m .envAttacking }
    mclk := fieldBits 64 m .mclk }

/-- EXPORT_STATE, R272. -/
def execExportState (s : State) : Host.Outcome State Fault Refusal := s.answer (.fields (exportMap s.psg))

/-- IMPORT_STATE(m), R273: the check comes first and the operation is all or nothing. -/
def execImportState (m : FieldMap) (s : State) : Host.Outcome State Fault Refusal :=
  match firstBadField m with
  | some f => s.raise (.eImport f)
  | none => s.complete (importPsg m) .done

end Sys2Proof.Machine
end

