-- ==== Sys2Proof/Config.lean ====
section
/-! DEFINITION. The open parameter of the hardware: the volume table (spec/00_scope.md R6, spec/44_volume_dac.md
R220 to R222).  The parameters the spec has DECIDED stand in Machine/Params.lean, where a repair may mend them. -/

namespace Sys2Proof.Config

/-- `VOL[0..15]` (R220): sixteen exact rational numbers that no source gives (R222, decision D13: OPEN).
Free: it has no body, so a claim about a sample holds for every table; an entry depends on the 4-bit level alone
(R222 (b): not on the channel, time or any state), so it needs no counter in State.  Assumption log entry 1. -/
opaque vol : BitVec 4 → Rat

end Sys2Proof.Config
end

