-- ==== Sys2Proof/Machine/Mixer.lean ====
section
/-! DEFINITION. The volume table and the mixer (spec/44_volume_dac.md, spec/45_mixer.md).  The functions take `VOL` as
an argument (R222: "A model takes VOL as an argument"); the meanings give them `Config.vol`. -/

namespace Sys2Proof.Machine

abbrev VolumeTable := BitVec 4 → Rat

/-- MIX_ACTIVE(c), R230: a mixer bit of 1 disables. -/
def mixActive (p : Psg) (c : Channel) : Bool :=
  (!toneDisabled p c && (p.tone c).out) || (!noiseDisabled p c && p.noise.out)

/-- MIX_LEVEL(c), R231. -/
def mixLevel (p : Psg) (c : Channel) : BitVec 4 := if envMode p c then p.env.level else fixedLevel p c

/-- MIX_CHANNEL(c), R232: an inactive channel contributes the number 0, which is not `VOL[0]`. -/
def mixChannel (vol : VolumeTable) (p : Psg) (c : Channel) : Rat :=
  if mixActive p c then vol (mixLevel p c) else 0

/-- MIX_SUM, R233: the exact mean. -/
def mixSum (vol : VolumeTable) (p : Psg) : Rat :=
  (mixChannel vol p .A + mixChannel vol p .B + mixChannel vol p .C) / 3

/-- VOL_LOOKUP(level), R221. -/
def execVolLookup (level : BitVec 4) (s : State) : Host.Outcome State Fault Refusal :=
  s.answer (.number (Config.vol level))

def execMixActive (c : Channel) (s : State) : Host.Outcome State Fault Refusal :=
  s.answer (.bit (mixActive s.psg c))

def execMixLevel (c : Channel) (s : State) : Host.Outcome State Fault Refusal :=
  s.answer (.level (mixLevel s.psg c))

def execMixChannel (c : Channel) (s : State) : Host.Outcome State Fault Refusal :=
  s.answer (.number (mixChannel Config.vol s.psg c))

def execMixSum (s : State) : Host.Outcome State Fault Refusal :=
  s.answer (.number (mixSum Config.vol s.psg))

/-- SAMPLE, R270: the triple and its mean; no state is written (R234). -/
def execSample (s : State) : Host.Outcome State Fault Refusal :=
  s.answer (.sample (mixChannel Config.vol s.psg .A) (mixChannel Config.vol s.psg .B)
    (mixChannel Config.vol s.psg .C) (mixSum Config.vol s.psg))

end Sys2Proof.Machine
end

