-- ==== Sys2Proof/Machine/Prescale.lean ====
section
/-! DEFINITION. The prescaler and TICK (spec/46_prescale_tick.md). -/

namespace Sys2Proof.Machine

/-- One tone/noise update: tone A, B, C, then noise (R251, R252). -/
def updateToneNoise (p : Psg) : Psg := updateNoise (updateTone .C (updateTone .B (updateTone .A p)))

/-- PRESCALE_CYCLE, R251: the divider tests see the counter after its increment (D2), which wraps modulo 2^64. -/
def prescaleCycle (p : Psg) : Psg :=
  let m := p.mclk + 1
  let p1 : Psg := { p with mclk := m }
  let p2 := if m.toNat % toneDivider = 0 then updateToneNoise p1 else p1
  if m.toNat % envDivider = 0 then updateEnv p2 else p2

/-- `repeat n times: PRESCALE_CYCLE()` (R250).  Taking the state apart makes an evaluation finish each cycle before it
begins the next; Laws/Prescale.lean has the plain equation. -/
def runCycles : Nat → Psg → Psg
  | 0, p => p
  | n + 1, p =>
    match prescaleCycle p with
    | ⟨regs, toneA, toneB, toneC, noise, env, mclk⟩ => runCycles n ⟨regs, toneA, toneB, toneC, noise, env, mclk⟩

def execPrescaleCycle (s : State) : Host.Outcome State Fault Refusal :=
  s.complete (prescaleCycle s.psg) .done

/-- TICK(n).  R250 for the count of the hardware boundary; R292 for a signed wrapper's count, whose negative values
raise E_ARG before the first master cycle. -/
def execTick (n : CycleCount) (s : State) : Host.Outcome State Fault Refusal :=
  match n with
  | .unsigned n => s.complete (runCycles n.toNat s.psg) (.cycles n)
  | .signed n => if n.toInt < 0 then s.raise (.eArg n.toInt) else s.complete (runCycles n.toNat s.psg) (.cycles n)

end Sys2Proof.Machine
end

