-- ==== Sys2Proof/Machine/Pseudo.lean ====
section
/-! DEFINITION. The shape codes as writes to R[13] (spec/30_encoding.md R98) and the pseudo-operations (R103). -/

namespace Sys2Proof.Machine

/-- A write to R[13] of the byte with ignored bits `x` and shape code `code` (R91, R124). -/
def writeShape (x code : BitVec 4) (s : State) : Host.Outcome State Fault Refusal :=
  s.complete (writeCell 13 (x ++ code) s.psg) .done

def execShape0 (x : BitVec 4) (s : State) : Host.Outcome State Fault Refusal := writeShape x 0x0 s
def execShape1 (x : BitVec 4) (s : State) : Host.Outcome State Fault Refusal := writeShape x 0x1 s
def execShape2 (x : BitVec 4) (s : State) : Host.Outcome State Fault Refusal := writeShape x 0x2 s
def execShape3 (x : BitVec 4) (s : State) : Host.Outcome State Fault Refusal := writeShape x 0x3 s
def execShape4 (x : BitVec 4) (s : State) : Host.Outcome State Fault Refusal := writeShape x 0x4 s
def execShape5 (x : BitVec 4) (s : State) : Host.Outcome State Fault Refusal := writeShape x 0x5 s
def execShape6 (x : BitVec 4) (s : State) : Host.Outcome State Fault Refusal := writeShape x 0x6 s
def execShape7 (x : BitVec 4) (s : State) : Host.Outcome State Fault Refusal := writeShape x 0x7 s
def execShape8 (x : BitVec 4) (s : State) : Host.Outcome State Fault Refusal := writeShape x 0x8 s
def execShape9 (x : BitVec 4) (s : State) : Host.Outcome State Fault Refusal := writeShape x 0x9 s
def execShapeA (x : BitVec 4) (s : State) : Host.Outcome State Fault Refusal := writeShape x 0xA s
def execShapeB (x : BitVec 4) (s : State) : Host.Outcome State Fault Refusal := writeShape x 0xB s
def execShapeC (x : BitVec 4) (s : State) : Host.Outcome State Fault Refusal := writeShape x 0xC s
def execShapeD (x : BitVec 4) (s : State) : Host.Outcome State Fault Refusal := writeShape x 0xD s
def execShapeE (x : BitVec 4) (s : State) : Host.Outcome State Fault Refusal := writeShape x 0xE s
def execShapeF (x : BitVec 4) (s : State) : Host.Outcome State Fault Refusal := writeShape x 0xF s

/-- WTP c, p: `W 2c, p & 0xFF` then `W 2c+1, p >> 8`, with no request between the two (assumption log entry 7). -/
def execWtp (c : Channel) (p : BitVec 12) (s : State) : Host.Outcome State Fault Refusal :=
  s.complete
    (writeCell (coarseReg c) ((p >>> 8).setWidth 8) (writeCell (fineReg c) (p.setWidth 8) s.psg)) .done

/-- WEP p: `W 11, p & 0xFF` then `W 12, p >> 8`. -/
def execWep (p : BitVec 16) (s : State) : Host.Outcome State Fault Refusal :=
  s.complete (writeCell 12 ((p >>> 8).setWidth 8) (writeCell 11 (p.setWidth 8) s.psg)) .done

/-- TU k: `T 16k`, whose result it returns. -/
def execTu (k : BitVec 60) (s : State) : Host.Outcome State Fault Refusal :=
  s.complete (runCycles (16 * k.toNat) s.psg) (.cycles (BitVec.ofNat 64 (16 * k.toNat)))

/-- EU k: `T 256k`, whose result it returns. -/
def execEu (k : BitVec 56) (s : State) : Host.Outcome State Fault Refusal :=
  s.complete (runCycles (256 * k.toNat) s.psg) (.cycles (BitVec.ofNat 64 (256 * k.toNat)))

end Sys2Proof.Machine
end

