-- ==== Sys2Proof/Machine/Dispatch.lean ====
section
/-! DEFINITION. The meaning of every operation: one arm per constructor of `Instr`. -/

namespace Sys2Proof.Machine

def exec (i : Instr) (s : State) : Host.Outcome State Fault Refusal :=
  match i with
  -- format WR
  | .writeR0 v => Sys2Proof.Machine.execWriteR0 v s
  | .writeR1 v => Sys2Proof.Machine.execWriteR1 v s
  | .writeR2 v => Sys2Proof.Machine.execWriteR2 v s
  | .writeR3 v => Sys2Proof.Machine.execWriteR3 v s
  | .writeR4 v => Sys2Proof.Machine.execWriteR4 v s
  | .writeR5 v => Sys2Proof.Machine.execWriteR5 v s
  | .writeR6 v => Sys2Proof.Machine.execWriteR6 v s
  | .writeR7 v => Sys2Proof.Machine.execWriteR7 v s
  | .writeR8 v => Sys2Proof.Machine.execWriteR8 v s
  | .writeR9 v => Sys2Proof.Machine.execWriteR9 v s
  | .writeR10 v => Sys2Proof.Machine.execWriteR10 v s
  | .writeR11 v => Sys2Proof.Machine.execWriteR11 v s
  | .writeR12 v => Sys2Proof.Machine.execWriteR12 v s
  | .writeR13 v => Sys2Proof.Machine.execWriteR13 v s
  | .writeR14 v => Sys2Proof.Machine.execWriteR14 v s
  | .writeR15 v => Sys2Proof.Machine.execWriteR15 v s
  | .writeReg a v => Sys2Proof.Machine.execWriteReg a v s
  -- format RD
  | .readReg a => Sys2Proof.Machine.execReadReg a s
  -- format TK
  | .tick n => Sys2Proof.Machine.execTick n s
  -- format N0
  | .sample => Sys2Proof.Machine.execSample s
  | .reset => Sys2Proof.Machine.execReset s
  | .exportState => Sys2Proof.Machine.execExportState s
  -- format BL
  | .importState m => Sys2Proof.Machine.execImportState m s
  -- format N0
  | .getLfsrState => Sys2Proof.Machine.execGetLfsrState s
  -- format INT
  | .toneSetPeriod c => Sys2Proof.Machine.execToneSetPeriod c s
  | .toneUpdate c => Sys2Proof.Machine.execToneUpdate c s
  | .toneOut c => Sys2Proof.Machine.execToneOut c s
  | .toneReset c => Sys2Proof.Machine.execToneReset c s
  | .noiseSetPeriod => Sys2Proof.Machine.execNoiseSetPeriod s
  | .noiseUpdate => Sys2Proof.Machine.execNoiseUpdate s
  | .lfsrStep x => Sys2Proof.Machine.execLfsrStep x s
  | .noiseOut => Sys2Proof.Machine.execNoiseOut s
  | .noiseReset => Sys2Proof.Machine.execNoiseReset s
  | .envSetPeriod => Sys2Proof.Machine.execEnvSetPeriod s
  | .envSetShape => Sys2Proof.Machine.execEnvSetShape s
  | .envUpdate => Sys2Proof.Machine.execEnvUpdate s
  | .envStep => Sys2Proof.Machine.execEnvStep s
  | .envLevel => Sys2Proof.Machine.execEnvLevel s
  | .envReset => Sys2Proof.Machine.execEnvReset s
  | .volLookup level => Sys2Proof.Machine.execVolLookup level s
  | .mixActive c => Sys2Proof.Machine.execMixActive c s
  | .mixLevel c => Sys2Proof.Machine.execMixLevel c s
  | .mixChannel c => Sys2Proof.Machine.execMixChannel c s
  | .mixSum => Sys2Proof.Machine.execMixSum s
  | .prescaleCycle => Sys2Proof.Machine.execPrescaleCycle s
  -- format SH
  | .shape0 x => Sys2Proof.Machine.execShape0 x s
  | .shape1 x => Sys2Proof.Machine.execShape1 x s
  | .shape2 x => Sys2Proof.Machine.execShape2 x s
  | .shape3 x => Sys2Proof.Machine.execShape3 x s
  | .shape4 x => Sys2Proof.Machine.execShape4 x s
  | .shape5 x => Sys2Proof.Machine.execShape5 x s
  | .shape6 x => Sys2Proof.Machine.execShape6 x s
  | .shape7 x => Sys2Proof.Machine.execShape7 x s
  | .shape8 x => Sys2Proof.Machine.execShape8 x s
  | .shape9 x => Sys2Proof.Machine.execShape9 x s
  | .shapeA x => Sys2Proof.Machine.execShapeA x s
  | .shapeB x => Sys2Proof.Machine.execShapeB x s
  | .shapeC x => Sys2Proof.Machine.execShapeC x s
  | .shapeD x => Sys2Proof.Machine.execShapeD x s
  | .shapeE x => Sys2Proof.Machine.execShapeE x s
  | .shapeF x => Sys2Proof.Machine.execShapeF x s
  -- format PSEUDO
  | .wtp c p => Sys2Proof.Machine.execWtp c p s
  | .wep p => Sys2Proof.Machine.execWep p s
  | .tu k => Sys2Proof.Machine.execTu k s
  | .eu k => Sys2Proof.Machine.execEu k s

end Sys2Proof.Machine
end

