-- ==== Sys2Proof/Machine/Step.lean ====
section
/-! DEFINITION. One step: the next request runs to completion (R67, R68: every host operation is atomic). -/

namespace Sys2Proof.Machine

/-- The host's next request, decoded and run; with no request pending nothing happens (R304: "between host operations
nothing happens"). -/
def step (s : State) : Host.Outcome State Fault Refusal :=
  match s.requests with
  | [] => .next s
  | _ :: _ =>
    match decode s.requests with
    | .ok (i, rest) => exec i { s with requests := rest }
    | .error e => .refused (.malformedRequest e)

/-- `s` with the operation of a table word as its next request, before those pending (assumption log entry 2: a
program is the host's list of requests, so this stands for the host issuing one). -/
def State.withFetchWord (s : State) (nbits w : Nat) : State :=
  { s with requests := tableRequest nbits w ++ s.requests }

end Sys2Proof.Machine
end

