-- ==== Sys2Proof/Safety.lean ====
section
/-! DEFINITION. The terms claims use: the invariants of spec/10_state.md R40, runs of operations, and the spec's
closed forms. -/

namespace Sys2Proof.Machine

/-! ### The state as the spec's rules write it -/

/-- `R[n]` as an integer (R8, R9); 0 at a number that is no address. -/
def Psg.cell (p : Psg) (n : Nat) : Nat := (p.regs.toList.getD n 0).toNat

/-- R40 (a): no period is 0.  (The upper bounds, R40 (b) and (c) are the widths of the fields.) -/
def Psg.PeriodsPositive (p : Psg) : Prop :=
  p.toneA.period ≠ 0 ∧ p.toneB.period ≠ 0 ∧ p.toneC.period ≠ 0 ∧ p.noise.period ≠ 0 ∧ p.env.period ≠ 0

/-- R40 (e): the periods and the shape are those the registers give, and the LFSR is not locked up. -/
def Psg.Consistent (p : Psg) : Prop :=
  (∀ c : Channel, (p.tone c).period.toNat
      = max 1 (((p.cell (2 * c.num + 1) &&& 0xF) <<< 8) ||| p.cell (2 * c.num))) ∧
  p.noise.period.toNat = max 1 (p.cell 6 &&& 0x1F) ∧
  p.env.period.toNat = max 1 ((p.cell 12 <<< 8) ||| p.cell 11) ∧
  p.env.shape.toNat = (p.cell 13 &&& 0xF) ∧
  p.noise.lfsr ≠ 0

/-! ### Kinds of operations -/

/-- The operations of the format INT: run inside host operations, "not issued by the host". -/
def isInternal : Instr → Bool
  | .toneSetPeriod _ | .toneUpdate _ | .toneOut _ | .toneReset _ => true
  | .noiseSetPeriod | .noiseUpdate | .lfsrStep _ | .noiseOut | .noiseReset => true
  | .envSetPeriod | .envSetShape | .envUpdate | .envStep | .envLevel | .envReset => true
  | .volLookup _ | .mixActive _ | .mixLevel _ | .mixChannel _ | .mixSum | .prescaleCycle => true
  | _ => false

def isShape : Instr → Bool
  | .shape0 _ | .shape1 _ | .shape2 _ | .shape3 _ | .shape4 _ | .shape5 _ | .shape6 _ | .shape7 _ => true
  | .shape8 _ | .shape9 _ | .shapeA _ | .shapeB _ | .shapeC _ | .shapeD _ | .shapeE _ | .shapeF _ => true
  | _ => false

/-- The write operations to a cell, by whatever row (R81, R98, R103). -/
def isWrite : Instr → Bool
  | .writeR0 _ | .writeR1 _ | .writeR2 _ | .writeR3 _ | .writeR4 _ | .writeR5 _ | .writeR6 _ | .writeR7 _ => true
  | .writeR8 _ | .writeR9 _ | .writeR10 _ | .writeR11 _ | .writeR12 _ | .writeR13 _ | .writeR14 _ => true
  | .writeR15 _ | .writeReg _ _ | .wtp _ _ | .wep _ => true
  | i => isShape i

/-- RESET and IMPORT_STATE, the two that write everything (R41). -/
def writesAll : Instr → Bool
  | .reset | .importState _ => true
  | _ => false

/-- The operations that run master cycles (R250, R251, R103). -/
def runsCycles : Instr → Bool
  | .tick _ | .tu _ | .eu _ | .prescaleCycle => true
  | _ => false

/-- The operations that contain an ENV_SET_SHAPE (R204, R329). -/
def setsShape : Instr → Bool
  | .writeR13 _ | .envSetShape => true
  | .writeReg a _ => a == 13
  | i => isShape i

/-- The operations R294 lists: they cannot fail. -/
def cannotFail : Instr → Bool
  | .sample | .reset | .exportState | .getLfsrState | .tick (.unsigned _) => true
  | i => isInternal i

/-- The operations R128 allows between a write and the read of the same register. -/
def keepsRegisters : Instr → Bool
  | .tick _ | .sample | .exportState | .getLfsrState => true
  | _ => false

/-- The operations that only read (R41: "READ_REG, SAMPLE, EXPORT_STATE and GET_LFSR_STATE write nothing"), with the
internal reads and pure functions. -/
def onlyReads : Instr → Bool
  | .readReg _ | .sample | .exportState | .getLfsrState => true
  | .toneOut _ | .noiseOut | .envLevel | .lfsrStep _ => true
  | .volLookup _ | .mixActive _ | .mixLevel _ | .mixChannel _ | .mixSum => true
  | _ => false

/-! ### Runs -/

/-- The operations of a trace, one after the other (R67), stopping where one gives no next state. -/
def runOps : List Instr → State → Host.Outcome State Fault Refusal
  | [], s => .next s
  | i :: is, s =>
    match exec i s with
    | .next t => runOps is t
    | .fault f => .fault f
    | .refused r => .refused r

/-! ### Field maps -/

/-- m gives f a value in the range. -/
def FieldMap.has (m : FieldMap) (f : Field) (lo hi : Int) : Prop :=
  ∃ v, fieldOf m f = some v ∧ lo ≤ v ∧ v ≤ hi

/-- R274's table: every field is there and in its range (R275). -/
def FieldMap.Importable (m : FieldMap) : Prop :=
  (∀ a, FieldMap.has m (.reg a) 0 255) ∧
  (∀ c, FieldMap.has m (.tonePeriod c) 1 4095) ∧
  (∀ c, FieldMap.has m (.toneCounter c) 0 4095) ∧
  (∀ c, FieldMap.has m (.toneOut c) 0 1) ∧
  FieldMap.has m .noiseLfsr 0 131071 ∧
  FieldMap.has m .noisePeriod 1 31 ∧
  FieldMap.has m .noiseCounter 0 31 ∧
  FieldMap.has m .noiseOut 0 1 ∧
  FieldMap.has m .envPeriod 1 65535 ∧
  FieldMap.has m .envCounter 0 65535 ∧
  FieldMap.has m .envLevel 0 15 ∧
  FieldMap.has m .envShape 0 15 ∧
  FieldMap.has m .envHolding 0 1 ∧
  FieldMap.has m .envAttacking 0 1 ∧
  FieldMap.has m .mclk 0 (2 ^ 64 - 1)

/-- The values of p are those m gives (a Boolean as 0 or 1). -/
def FieldMap.Describes (m : FieldMap) (p : Psg) : Prop :=
  (∀ a : Fin 16, fieldOf m (.reg a) = some (p.cell a.val : Int)) ∧
  (∀ c, fieldOf m (.tonePeriod c) = some ((p.tone c).period.toNat : Int)) ∧
  (∀ c, fieldOf m (.toneCounter c) = some ((p.tone c).counter.toNat : Int)) ∧
  (∀ c, fieldOf m (.toneOut c) = some ((p.tone c).out.toNat : Int)) ∧
  fieldOf m .noiseLfsr = some (p.noise.lfsr.toNat : Int) ∧
  fieldOf m .noisePeriod = some (p.noise.period.toNat : Int) ∧
  fieldOf m .noiseCounter = some (p.noise.counter.toNat : Int) ∧
  fieldOf m .noiseOut = some (p.noise.out.toNat : Int) ∧
  fieldOf m .envPeriod = some (p.env.period.toNat : Int) ∧
  fieldOf m .envCounter = some (p.env.counter.toNat : Int) ∧
  fieldOf m .envLevel = some (p.env.level.toNat : Int) ∧
  fieldOf m .envShape = some (p.env.shape.toNat : Int) ∧
  fieldOf m .envHolding = some (p.env.holding.toNat : Int) ∧
  fieldOf m .envAttacking = some (p.env.attacking.toNat : Int) ∧
  fieldOf m .mclk = some (p.mclk.toNat : Int)

/-! ### The mixer's formulas on integers -/

/-- R230: `(tone_enabled && tone[c].out == 1) || (noise_enabled && noise.out == 1)`. -/
def Psg.active (p : Psg) (c : Channel) : Bool :=
  (!(p.cell 7).testBit c.num && (p.tone c).out) || (!(p.cell 7).testBit (c.num + 3) && p.noise.out)

/-- R231: `if R[8+c][4] == 1 then env.level else (R[8+c] & 0xF)`. -/
def Psg.dacLevel (p : Psg) (c : Channel) : Nat :=
  if (p.cell (8 + c.num)).testBit 4 then p.env.level.toNat else p.cell (8 + c.num) &&& 0xF

/-- R232: `if MIX_ACTIVE(c) then VOL_LOOKUP(MIX_LEVEL(c)) else 0`. -/
def Psg.pcm (p : Psg) (c : Channel) : Rat :=
  if p.active c then Config.vol (BitVec.ofNat 4 (p.dacLevel c)) else 0

/-! ### The level sequences of spec/30_encoding.md R98 -/

/-- The level at position n after a write of the shape code, with `ENV_HOLD_ALT_FLIP == flip` (R187 to R202). -/
def shapeLevel (flip : Bool) (code : Nat) (n : Nat) : Nat :=
  match code with
  | 0x4 | 0x6 => if n ≤ 15 then n else 0
  | 0x5 | 0x7 | 0xD => min n 15
  | 0x8 => 15 - n % 16
  | 0xA => if n % 32 ≤ 15 then 15 - n % 32 else n % 32 - 16
  | 0xB => if flip && decide (16 ≤ n) then 15 else 15 - min n 15
  | 0xC => n % 16
  | 0xE => if n % 32 ≤ 15 then n % 32 else 31 - n % 32
  | 0xF => if flip && decide (16 ≤ n) then 0 else min n 15
  | _ => 15 - min n 15

/-- The codes that never hold: sawtooths and triangles. -/
def shapeRepeats (code : Nat) : Bool := code == 0x8 || code == 0xA || code == 0xC || code == 0xE

/-- The direction at position n: a triangle turns at every boundary event, every 16 positions (R197, R201). -/
def shapeRises (code : Nat) (n : Nat) : Bool :=
  match code with
  | 0xA => n / 16 % 2 == 1
  | 0xE => n / 16 % 2 == 0
  | _ => code / 4 % 2 == 1

end Sys2Proof.Machine
end

