-- ==== Sys2Proof/Certificates/Slice0/Obligations.lean ====
section
/-! DEFINITION. The statements for the provers.  Each docstring names the rule it formalises.  A result statement gives
the WHOLE next state, so it is the instruction's frame as well: what the equation does not write is unchanged.  The
spec's pseudocode is written on integers (`Psg.cell n` is R[n]), not with the model's bit operations.  In every statement the
reply and the pending requests, which stay, are the model's ports (assumption log entry 2), an error is a reply
(entry 10), and an internal operation run on its own is a request of the model (entry 8). -/

open Sys2Proof Sys2Proof.Machine

/-! ## Reset -/

/-- R47 to R50, for the state after construction and for RESET from any state. -/
def Obligations.ResetGivesGeneratorValues : Prop :=
  ∀ s : State, ∃ t, exec .reset s = .next t ∧
    ∀ u : State, (u = t ∨ u = State.reset) →
      (∀ c : Channel, (u.psg.tone c).counter = 0 ∧ (u.psg.tone c).out = false ∧ (u.psg.tone c).period = 1) ∧
      u.psg.noise.lfsr = 0x1FFFF ∧ u.psg.noise.counter = 0 ∧ u.psg.noise.period = 1 ∧ u.psg.noise.out = false ∧
      u.psg.env.counter = 0 ∧ u.psg.env.period = 1 ∧ u.psg.env.level = 15 ∧ u.psg.env.shape = 0 ∧
      u.psg.env.holding = false ∧ u.psg.env.attacking = false ∧
      u.psg.mclk = 0

/-- R46, R271, R320: RESET clears the sixteen registers (decision D5 of the spec), and its result is the state of a new
machine whatever the state before.  That the pending requests stay is the model's choice (assumption log entry 2). -/
def Obligations.ResetWritesEveryElement : Prop :=
  ∀ s : State, exec .reset s = .next { s with psg := State.reset.psg, reply := .done } ∧
    ∀ n, State.reset.psg.cell n = 0

/-! ## Register writes and reads -/

/-- R111 to R116: the store, the period recomputed from both stored bytes, and nothing else. -/
def Obligations.WriteTonePeriodRegisters : Prop :=
  ∀ (s : State) (v : Byte),
    exec (.writeR0 v) s = .next { s with
      reply := .done
      psg := { s.psg with
        regs := s.psg.regs.set 0 v
        toneA := { s.psg.toneA with
          period := BitVec.ofNat 12 (max 1 (((s.psg.cell 1 &&& 0xF) <<< 8) ||| v.toNat)) } } } ∧
    exec (.writeR1 v) s = .next { s with
      reply := .done
      psg := { s.psg with
        regs := s.psg.regs.set 1 v
        toneA := { s.psg.toneA with
          period := BitVec.ofNat 12 (max 1 (((v.toNat &&& 0xF) <<< 8) ||| s.psg.cell 0)) } } } ∧
    exec (.writeR2 v) s = .next { s with
      reply := .done
      psg := { s.psg with
        regs := s.psg.regs.set 2 v
        toneB := { s.psg.toneB with
          period := BitVec.ofNat 12 (max 1 (((s.psg.cell 3 &&& 0xF) <<< 8) ||| v.toNat)) } } } ∧
    exec (.writeR3 v) s = .next { s with
      reply := .done
      psg := { s.psg with
        regs := s.psg.regs.set 3 v
        toneB := { s.psg.toneB with
          period := BitVec.ofNat 12 (max 1 (((v.toNat &&& 0xF) <<< 8) ||| s.psg.cell 2)) } } } ∧
    exec (.writeR4 v) s = .next { s with
      reply := .done
      psg := { s.psg with
        regs := s.psg.regs.set 4 v
        toneC := { s.psg.toneC with
          period := BitVec.ofNat 12 (max 1 (((s.psg.cell 5 &&& 0xF) <<< 8) ||| v.toNat)) } } } ∧
    exec (.writeR5 v) s = .next { s with
      reply := .done
      psg := { s.psg with
        regs := s.psg.regs.set 5 v
        toneC := { s.psg.toneC with
          period := BitVec.ofNat 12 (max 1 (((v.toNat &&& 0xF) <<< 8) ||| s.psg.cell 4)) } } }

/-- R117. -/
def Obligations.WriteNoisePeriodRegister : Prop :=
  ∀ (s : State) (v : Byte),
    exec (.writeR6 v) s = .next { s with
      reply := .done
      psg := { s.psg with
        regs := s.psg.regs.set 6 v
        noise := { s.psg.noise with period := BitVec.ofNat 5 (max 1 (v.toNat &&& 0x1F)) } } }

/-- The effect of R118 to R121 on the state: the byte is stored and no generator changes (what a later SAMPLE makes of
it is stated by SampleReturnsTripleAndMean). -/
def Obligations.WriteMixerAndVolumeRegisters : Prop :=
  ∀ (s : State) (v : Byte),
    exec (.writeR7 v) s = .next { s with reply := .done, psg := { s.psg with regs := s.psg.regs.set 7 v } } ∧
    exec (.writeR8 v) s = .next { s with reply := .done, psg := { s.psg with regs := s.psg.regs.set 8 v } } ∧
    exec (.writeR9 v) s = .next { s with reply := .done, psg := { s.psg with regs := s.psg.regs.set 9 v } } ∧
    exec (.writeR10 v) s = .next { s with reply := .done, psg := { s.psg with regs := s.psg.regs.set 10 v } }

/-- R122, R123: level, flags and counter of the envelope stay. -/
def Obligations.WriteEnvelopePeriodRegisters : Prop :=
  ∀ (s : State) (v : Byte),
    exec (.writeR11 v) s = .next { s with
      reply := .done
      psg := { s.psg with
        regs := s.psg.regs.set 11 v
        env := { s.psg.env with period := BitVec.ofNat 16 (max 1 ((s.psg.cell 12 <<< 8) ||| v.toNat)) } } } ∧
    exec (.writeR12 v) s = .next { s with
      reply := .done
      psg := { s.psg with
        regs := s.psg.regs.set 12 v
        env := { s.psg.env with period := BitVec.ofNat 16 (max 1 ((v.toNat <<< 8) ||| s.psg.cell 11)) } } }

/-- R124 and R181: every shape write restarts the envelope, and counter and period stay (decision D12 of the spec). -/
def Obligations.ShapeWriteRestartsEnvelope : Prop :=
  ∀ (s : State) (v : Byte),
    exec (.writeR13 v) s = .next { s with
      reply := .done
      psg := { s.psg with
        regs := s.psg.regs.set 13 v
        env := { s.psg.env with
          shape := BitVec.ofNat 4 (v.toNat &&& 0xF)
          attacking := v.toNat.testBit 2
          level := if v.toNat.testBit 2 then 0 else 15
          holding := false } } } ∧
    exec .envSetShape s = .next { s with
      reply := .done
      psg := { s.psg with
        env := { s.psg.env with
          shape := BitVec.ofNat 4 (s.psg.cell 13 &&& 0xF)
          attacking := (s.psg.cell 13).testBit 2
          level := if (s.psg.cell 13).testBit 2 then 0 else 15
          holding := false } } }

/-- R125, R126: plain storage (decision D22 of the spec). -/
def Obligations.WriteIoRegisters : Prop :=
  ∀ (s : State) (v : Byte),
    exec (.writeR14 v) s = .next { s with reply := .done, psg := { s.psg with regs := s.psg.regs.set 14 v } } ∧
    exec (.writeR15 v) s = .next { s with reply := .done, psg := { s.psg with regs := s.psg.regs.set 15 v } }

/-- R110 with R81: at an address 0..15 WRITE_REG completes as the write operation of that register does. -/
def Obligations.WriteRegSelectsTheRegister : Prop :=
  ∀ (s : State) (v : Byte),
    exec (.writeReg 0 v) s = exec (.writeR0 v) s ∧
    exec (.writeReg 1 v) s = exec (.writeR1 v) s ∧
    exec (.writeReg 2 v) s = exec (.writeR2 v) s ∧
    exec (.writeReg 3 v) s = exec (.writeR3 v) s ∧
    exec (.writeReg 4 v) s = exec (.writeR4 v) s ∧
    exec (.writeReg 5 v) s = exec (.writeR5 v) s ∧
    exec (.writeReg 6 v) s = exec (.writeR6 v) s ∧
    exec (.writeReg 7 v) s = exec (.writeR7 v) s ∧
    exec (.writeReg 8 v) s = exec (.writeR8 v) s ∧
    exec (.writeReg 9 v) s = exec (.writeR9 v) s ∧
    exec (.writeReg 10 v) s = exec (.writeR10 v) s ∧
    exec (.writeReg 11 v) s = exec (.writeR11 v) s ∧
    exec (.writeReg 12 v) s = exec (.writeR12 v) s ∧
    exec (.writeReg 13 v) s = exec (.writeR13 v) s ∧
    exec (.writeReg 14 v) s = exec (.writeR14 v) s ∧
    exec (.writeReg 15 v) s = exec (.writeR15 v) s

/-- R110: WRITE_REG completes at every address 0..15, stores the byte there, and leaves the clock, every counter, every
tone and noise output latch and the LFSR as they were. -/
def Obligations.WriteRegStoresOneCell : Prop :=
  ∀ (s : State) (a v : Byte), a.toNat ≤ 15 → ∃ t, exec (.writeReg a v) s = .next t ∧
    t.reply = .done ∧ t.requests = s.requests ∧
    (∀ n, n ≤ 15 → t.psg.cell n = if n = a.toNat then v.toNat else s.psg.cell n) ∧
    t.psg.mclk = s.psg.mclk ∧
    (∀ c : Channel, (t.psg.tone c).counter = (s.psg.tone c).counter ∧ (t.psg.tone c).out = (s.psg.tone c).out) ∧
    t.psg.noise.counter = s.psg.noise.counter ∧ t.psg.noise.out = s.psg.noise.out ∧
    t.psg.noise.lfsr = s.psg.noise.lfsr ∧ t.psg.env.counter = s.psg.env.counter

/-- Derived from R291, R290: the addressing error is raised exactly above 15 and nothing changes but what is reported;
the recorded address is decision D16 of the spec. -/
def Obligations.AddressErrorExactlyAbove15 : Prop :=
  ∀ (s : State) (a v : Byte),
    (15 < a.toNat →
      exec (.writeReg a v) s = .next { s with reply := .error (.eAddr a) } ∧
      exec (.readReg a) s = .next { s with reply := .error (.eAddr a) }) ∧
    (a.toNat ≤ 15 → ∀ t e,
      (exec (.writeReg a v) s = .next t ∨ exec (.readReg a) s = .next t) → t.reply ≠ .error e)

/-- R127, R75: the stored byte, unmasked (decision D6 of the spec), and no state is written. -/
def Obligations.ReadRegReturnsStoredByte : Prop :=
  ∀ (s : State) (a : Byte) (h : a.toNat < 16),
    exec (.readReg a) s = .next { s with reply := .byte s.psg.regs[a.toNat] }

/-- R128: a write is read back, whatever TICK, SAMPLE, EXPORT_STATE and GET_LFSR_STATE operations come between
(the unmasked read is decision D6 of the spec). -/
def Obligations.WriteThenReadReturnsTheByte : Prop :=
  ∀ (s : State) (a v : Byte) (ops : List Instr), a.toNat < 16 → (∀ i ∈ ops, keepsRegisters i = true) →
    ∃ t, runOps (.writeReg a v :: (ops ++ [.readReg a])) s = .next t ∧ t.reply = .byte v

/-- R129: writes to different addresses commute, a fine and coarse pair among them. -/
def Obligations.WritesToDifferentAddressesCommute : Prop :=
  ∀ (s : State) (a b v w : Byte), a ≠ b → ∃ t u,
    runOps [.writeReg a v, .writeReg b w] s = .next t ∧
    runOps [.writeReg b w, .writeReg a v] s = .next u ∧ t.psg = u.psg

/-! ## Tone generators -/

/-- R140, R142, R143. -/
def Obligations.ToneInternalOperations : Prop :=
  ∀ (s : State) (c : Channel),
    exec (.toneSetPeriod c) s = .next { s with
      reply := .done
      psg := s.psg.setTone c { s.psg.tone c with
        period := BitVec.ofNat 12
          (max 1 (((s.psg.cell (2 * c.num + 1) &&& 0xF) <<< 8) ||| s.psg.cell (2 * c.num))) } } ∧
    exec (.toneOut c) s = .next { s with reply := .bit (s.psg.tone c).out } ∧
    exec (.toneReset c) s = .next { s with
      reply := .done
      psg := s.psg.setTone c { counter := 0, out := false, period := 1 } }

/-- R141 and R161: the fire test on the counter before its decrement (decision D4 of the spec), the reload, and the
noise latch taken from the new LFSR value. -/
def Obligations.ToneAndNoiseUpdateRules : Prop :=
  ∀ (s : State) (c : Channel),
    exec (.toneUpdate c) s = .next { s with
      reply := .done
      psg := s.psg.setTone c
        (if (s.psg.tone c).counter.toNat ≤ 1 then
          { out := !(s.psg.tone c).out, counter := (s.psg.tone c).period, period := (s.psg.tone c).period }
        else
          { s.psg.tone c with counter := BitVec.ofNat 12 ((s.psg.tone c).counter.toNat - 1) }) } ∧
    exec .noiseUpdate s = .next { s with
      reply := .done
      psg := { s.psg with
        noise :=
          if s.psg.noise.counter.toNat ≤ 1 then
            { lfsr := lfsrStep s.psg.noise.lfsr
              out := (lfsrStep s.psg.noise.lfsr).toNat.testBit 0
              counter := s.psg.noise.period
              period := s.psg.noise.period }
          else
            { s.psg.noise with counter := BitVec.ofNat 5 (s.psg.noise.counter.toNat - 1) } } }

/-- R145: with a counter of at most P, 2P updates flip the output exactly twice and return it to where it was. -/
def Obligations.TwoPeriodsFlipTheToneTwice : Prop :=
  ∀ t : Tone, t.period ≠ 0 → t.counter.toNat ≤ t.period.toNat →
    (Tone.update^[2 * t.period.toNat] t).out = t.out ∧
    ((List.range (2 * t.period.toNat)).filter
      (fun k => (Tone.update^[k + 1] t).out != (Tone.update^[k] t).out)).length = 2

/-- R148: the tone of channel A after RESET, a period p written, and k tone/noise updates. -/
def Obligations.ToneClosedFormAfterReset : Prop :=
  ∀ (s : State) (p k : Nat), 1 ≤ p → p ≤ 4095 → 1 ≤ k → 16 * k < 2 ^ 64 →
    ∃ t, runOps [.reset, .writeR0 (BitVec.ofNat 8 (p &&& 0xFF)), .writeR1 (BitVec.ofNat 8 (p >>> 8)),
        .tick (.unsigned (BitVec.ofNat 64 (16 * k)))] s = .next t ∧
      t.psg.toneA.out = decide ((k - 1) / p % 2 = 0) ∧
      t.psg.toneA.counter.toNat = p - (k - 1) % p

/-! ## Noise generator -/

/-- R160, R163, R164, R165. -/
def Obligations.NoiseInternalOperations : Prop :=
  ∀ s : State,
    exec .noiseSetPeriod s = .next { s with
      reply := .done
      psg := { s.psg with
        noise := { s.psg.noise with period := BitVec.ofNat 5 (max 1 (s.psg.cell 6 &&& 0x1F)) } } } ∧
    exec .noiseOut s = .next { s with reply := .bit s.psg.noise.out } ∧
    exec .getLfsrState s = .next { s with reply := .lfsr s.psg.noise.lfsr } ∧
    exec .noiseReset s = .next { s with
      reply := .done
      psg := { s.psg with noise := { lfsr := 0x1FFFF, counter := 0, period := 1, out := false } } }

/-- R162: the value of LFSR_STEP as a number and bit by bit; nothing is written. -/
def Obligations.LfsrStepShiftsInTheTaps : Prop :=
  ∀ (s : State) (x : BitVec 17), ∃ y : BitVec 17,
    exec (.lfsrStep x) s = .next { s with reply := .lfsr y } ∧
    y.toNat = (x.toNat >>> 1) ||| ((x.toNat.testBit 0 ^^ x.toNat.testBit 3).toNat <<< 16) ∧
    (∀ i, i < 16 → y.getLsbD i = x.getLsbD (i + 1)) ∧
    y.getLsbD 16 = (x.getLsbD 0 ^^ x.getLsbD 3)

/-- Derived from R29, R161, R165, R273: the latch is loaded with bit 0 of the new value in a firing update; RESET clears
it although bit 0 of the reset value is 1; once latch and bit agree they agree until a RESET (of the whole or of the
noise generator) or an import.  The operations include the internal ones (assumption log entry 8). -/
def Obligations.NoiseLatchFollowsTheNewBit : Prop :=
  (∀ s : State, s.psg.noise.counter.toNat ≤ 1 → ∃ t, exec .noiseUpdate s = .next t ∧
    t.psg.noise.out = t.psg.noise.lfsr.getLsbD 0) ∧
  (∀ s : State, ∃ t, exec .reset s = .next t ∧ t.psg.noise.out = false ∧ t.psg.noise.lfsr.getLsbD 0 = true) ∧
  (∀ (i : Instr) (s t : State), writesAll i = false → i ≠ .noiseReset →
    s.psg.noise.out = s.psg.noise.lfsr.getLsbD 0 → exec i s = .next t →
    t.psg.noise.out = t.psg.noise.lfsr.getLsbD 0)

/-- R168, R331: an LFSR of 0 stays 0, and no operation but RESET (of the whole or of the noise generator) and
IMPORT_STATE leads into that state or out of it. -/
def Obligations.LfsrLockUpIsClosed : Prop :=
  ∀ (i : Instr) (s t : State), writesAll i = false → i ≠ .noiseReset → exec i s = .next t →
    (t.psg.noise.lfsr = 0 ↔ s.psg.noise.lfsr = 0)

/-- R167: LFSR_STEP fixes 0, is a permutation, and moves the non-zero values in one cycle of 131071. -/
def Obligations.LfsrRunsThroughAllNonZeroValues : Prop :=
  lfsrStep 0 = 0 ∧ Function.Bijective lfsrStep ∧
  lfsrStep^[131071] 0x1FFFF = 0x1FFFF ∧
  (∀ k, 0 < k → k < 131071 → lfsrStep^[k] 0x1FFFF ≠ 0x1FFFF) ∧
  (∀ x, x ≠ 0 → ∃ k, k < 131071 ∧ lfsrStep^[k] 0x1FFFF = x)

/-! ## Envelope generator -/

/-- R180, R185, R186. -/
def Obligations.EnvelopeInternalOperations : Prop :=
  ∀ s : State,
    exec .envSetPeriod s = .next { s with
      reply := .done
      psg := { s.psg with
        env := { s.psg.env with period := BitVec.ofNat 16 (max 1 ((s.psg.cell 12 <<< 8) ||| s.psg.cell 11)) } } } ∧
    exec .envLevel s = .next { s with reply := .level s.psg.env.level } ∧
    exec .envReset s = .next { s with
      reply := .done
      psg := { s.psg with
        env := { counter := 0, period := 1, level := 15, shape := 0, holding := false, attacking := false } } }

/-- R183, arm by arm, with `ENV_HOLD_ALT_FLIP == false` (decisions D7 to D11 of the spec). -/
def Obligations.EnvelopeStepArms : Prop :=
  ∀ s : State,
    (s.psg.env.holding = true → exec .envStep s = .next { s with reply := .done }) ∧
    (s.psg.env.holding = false → s.psg.env.attacking = true → s.psg.env.level.toNat < 15 →
      exec .envStep s = .next { s with
        reply := .done
        psg := { s.psg with env := { s.psg.env with level := BitVec.ofNat 4 (s.psg.env.level.toNat + 1) } } }) ∧
    (s.psg.env.holding = false → s.psg.env.attacking = false → 0 < s.psg.env.level.toNat →
      exec .envStep s = .next { s with
        reply := .done
        psg := { s.psg with env := { s.psg.env with level := BitVec.ofNat 4 (s.psg.env.level.toNat - 1) } } }) ∧
    (s.psg.env.holding = false →
      ((s.psg.env.attacking = true ∧ s.psg.env.level = 15) ∨ (s.psg.env.attacking = false ∧ s.psg.env.level = 0)) →
      (s.psg.env.shape.getLsbD 3 = false → s.psg.env.shape.getLsbD 0 = false →
        exec .envStep s = .next { s with
          reply := .done
          psg := { s.psg with env := { s.psg.env with holding := true, level := 0 } } }) ∧
      (s.psg.env.shape.getLsbD 0 = true →
        exec .envStep s = .next { s with
          reply := .done
          psg := { s.psg with env := { s.psg.env with holding := true } } }) ∧
      (s.psg.env.shape.getLsbD 3 = true → s.psg.env.shape.getLsbD 0 = false → s.psg.env.shape.getLsbD 1 = true →
        exec .envStep s = .next { s with
          reply := .done
          psg := { s.psg with env := { s.psg.env with attacking := !s.psg.env.attacking } } }) ∧
      (s.psg.env.shape.getLsbD 3 = true → s.psg.env.shape.getLsbD 0 = false → s.psg.env.shape.getLsbD 1 = false →
        exec .envStep s = .next { s with
          reply := .done
          psg := { s.psg with
            env := { s.psg.env with level := if s.psg.env.attacking then 0 else 15 } } }))

/-- R182: a firing update is an ENV_STEP and a reload "regardless of branch taken"; any other only counts (the fire
test is decision D4 of the spec). -/
def Obligations.EnvelopeUpdateRule : Prop :=
  ∀ s : State, ∃ t, exec .envStep s = .next t ∧
    (s.psg.env.counter.toNat ≤ 1 → exec .envUpdate s = .next { t with
      psg := { t.psg with env := { t.psg.env with counter := s.psg.env.period } } }) ∧
    (1 < s.psg.env.counter.toNat → exec .envUpdate s = .next { s with
      reply := .done
      psg := { s.psg with env := { s.psg.env with
        counter := BitVec.ofNat 16 (s.psg.env.counter.toNat - 1) } } })

/-- R187 to R202: the level, the hold flag and the direction of every shape code at every position, for both values of
`ENV_HOLD_ALT_FLIP` (decisions D7 to D11 of the spec). -/
def Obligations.ShapeCodesFollowTheirPictures : Prop :=
  ∀ (flip : Bool) (e : Env) (code : BitVec 4) (n : Nat),
    ((Env.step flip)^[n] (e.restart code)).level.toNat = shapeLevel flip code.toNat n ∧
    ((Env.step flip)^[n] (e.restart code)).holding = (!shapeRepeats code.toNat && decide (16 ≤ n)) ∧
    ((Env.step flip)^[n] (e.restart code)).attacking = shapeRises code.toNat n ∧
    ((Env.step flip)^[n] (e.restart code)).shape = code

/-- R98: each SHAPE row is the write of its byte to register 13, whatever the ignored bits x. -/
def Obligations.ShapeCodesAreWritesToR13 : Prop :=
  ∀ (s : State) (x : BitVec 4) (op : BitVec 4 → Instr) (code : Nat),
    (op, code) ∈ [(Instr.shape0, 0x0), (Instr.shape1, 0x1), (Instr.shape2, 0x2), (Instr.shape3, 0x3),
      (Instr.shape4, 0x4), (Instr.shape5, 0x5), (Instr.shape6, 0x6), (Instr.shape7, 0x7),
      (Instr.shape8, 0x8), (Instr.shape9, 0x9), (Instr.shapeA, 0xA), (Instr.shapeB, 0xB),
      (Instr.shapeC, 0xC), (Instr.shapeD, 0xD), (Instr.shapeE, 0xE), (Instr.shapeF, 0xF)] →
    exec (op x) s = .next { s with
      reply := .done
      psg := { s.psg with
        regs := s.psg.regs.set 13 (BitVec.ofNat 8 (16 * x.toNat + code))
        env := { s.psg.env with
          shape := BitVec.ofNat 4 code
          attacking := code.testBit 2
          level := if code.testBit 2 then 0 else 15
          holding := false } } }

/-- R204, R329: once the envelope holds, only a shape write, a RESET (of the whole or of the envelope) or an import
moves its level or its flags. -/
def Obligations.HoldingEndsOnlyByShapeWrite : Prop :=
  ∀ (i : Instr) (s t : State), s.psg.env.holding = true →
    setsShape i = false → writesAll i = false → i ≠ .envReset → exec i s = .next t →
    t.psg.env.holding = true ∧ t.psg.env.level = s.psg.env.level ∧ t.psg.env.attacking = s.psg.env.attacking

/-- R328: after a shape write the level first moves in envelope update number max(1, counter), from the running count
(decision D12 of the spec). -/
def Obligations.FirstShapeStepWaitsForTheRunningCount : Prop :=
  ∀ (s : State) (v : Byte) (n : Nat), n ≤ max 1 s.psg.env.counter.toNat →
    ∃ t, runOps (.writeR13 v :: List.replicate n .envUpdate) s = .next t ∧
      t.psg.env.level.toNat =
        if n < max 1 s.psg.env.counter.toNat then (if v.toNat.testBit 2 then 0 else 15)
        else (if v.toNat.testBit 2 then 1 else 14)

/-- R325: after RESET the envelope fades out by itself, one step per 256 master cycles, and then holds at 0. -/
def Obligations.EnvelopeFadesOutAfterReset : Prop :=
  ∀ (s : State) (k : BitVec 56), ∃ t, runOps [.reset, .eu k] s = .next t ∧
    t.psg.env.level.toNat = 15 - min k.toNat 15 ∧
    t.psg.env.holding = decide (16 ≤ k.toNat) ∧
    t.psg.env.attacking = false ∧ t.psg.env.shape = 0

/-! ## Volume table, mixer, sample -/

/-- R221, R230, R231, R232; `Config.vol` is the open table, so this holds for every table. -/
def Obligations.VolumeAndMixerOperations : Prop :=
  ∀ (s : State) (c : Channel) (level : BitVec 4),
    exec (.volLookup level) s = .next { s with reply := .number (Config.vol level) } ∧
    exec (.mixActive c) s = .next { s with reply := .bit (s.psg.active c) } ∧
    exec (.mixLevel c) s = .next { s with reply := .level (BitVec.ofNat 4 (s.psg.dacLevel c)) } ∧
    exec (.mixChannel c) s = .next { s with reply := .number (s.psg.pcm c) }

/-- R233, R270: the triple and its exact mean (decision D14 of the spec); no state is written (R234). -/
def Obligations.SampleReturnsTripleAndMean : Prop :=
  ∀ s : State,
    exec .sample s = .next { s with
      reply := .sample (s.psg.pcm .A) (s.psg.pcm .B) (s.psg.pcm .C)
        ((s.psg.pcm .A + s.psg.pcm .B + s.psg.pcm .C) / 3) } ∧
    exec .mixSum s = .next { s with reply := .number ((s.psg.pcm .A + s.psg.pcm .B + s.psg.pcm .C) / 3) }

/-- R233 under R222's named hypotheses on a table: the sample lies between 0 and the largest entry (the hypotheses and
the unipolar mean are decisions D13 and D14 of the spec). -/
def Obligations.SampleLiesBelowTheLargestEntry : Prop :=
  ∀ (vol : VolumeTable) (p : Psg), (∀ l, 0 ≤ vol l) → (∀ l, vol l ≤ vol 15) →
    0 ≤ mixSum vol p ∧ mixSum vol p ≤ vol 15

/-- R237, R330: the source's mixer example under both bytes, and a channel with both sources disabled.  The mean beside
the example's triple is R233's, decision D14 of the spec. -/
def Obligations.MixerExamples : Prop :=
  ∀ s : State,
    (s.psg.cell 7 = 0xF8 → s.psg.cell 8 = 0x0F → s.psg.toneA.out = true →
      s.psg.toneB.out = false → s.psg.toneC.out = false →
      exec .sample s = .next { s with reply := .sample (Config.vol 15) 0 0 (Config.vol 15 / 3) }) ∧
    (s.psg.cell 7 = 0xFE → s.psg.cell 8 = 0x0F → s.psg.toneA.out = true →
      exec .sample s = .next { s with reply := .sample (Config.vol 15) 0 0 (Config.vol 15 / 3) }) ∧
    (∀ c : Channel, (s.psg.cell 7).testBit c.num = true → (s.psg.cell 7).testBit (c.num + 3) = true →
      exec (.mixChannel c) s = .next { s with reply := .number 0 })

/-! ## Prescaler and TICK -/

/-- R251: one master cycle, element by element; the divider tests see the incremented counter (decision D2 of the
spec), which wraps modulo 2^64 (D3). -/
def Obligations.PrescaleCycleRule : Prop :=
  ∀ s : State, ∃ t, exec .prescaleCycle s = .next t ∧
    t.reply = .done ∧ t.requests = s.requests ∧ t.psg.regs = s.psg.regs ∧
    t.psg.mclk.toNat = (s.psg.mclk.toNat + 1) % 2 ^ 64 ∧
    (∀ c : Channel, t.psg.tone c =
      if (s.psg.mclk.toNat + 1) % 2 ^ 64 % 16 = 0 then (s.psg.tone c).update else s.psg.tone c) ∧
    t.psg.noise = (if (s.psg.mclk.toNat + 1) % 2 ^ 64 % 16 = 0 then s.psg.noise.update else s.psg.noise) ∧
    t.psg.env = (if (s.psg.mclk.toNat + 1) % 2 ^ 64 % 256 = 0 then s.psg.env.update false else s.psg.env)

/-- R250, R256: TICK repeats the master cycle n times and returns n. -/
def Obligations.TickRepeatsThePrescaleCycle : Prop :=
  ∀ (s : State) (n : BitVec 64),
    exec (.tick (.unsigned n)) s = .next { s with psg := prescaleCycle^[n.toNat] s.psg, reply := .cycles n }

/-- R257, R292: a signed count below 0 is E_ARG before any change, and any other runs as the unsigned count (decision
D17 of the spec; the wrapper's width is assumption log entry 5). -/
def Obligations.SignedTickRejectsNegativeCounts : Prop :=
  ∀ (s : State) (n : BitVec 64),
    (n.toInt < 0 → exec (.tick (.signed n)) s = .next { s with reply := .error (.eArg n.toInt) }) ∧
    (0 ≤ n.toInt → exec (.tick (.signed n)) s =
      .next { s with psg := prescaleCycle^[n.toInt.toNat] s.psg, reply := .cycles n })

/-- R253, R254: TICK performs exactly the updates between the two counts, in every element, across the wrap as well. -/
def Obligations.TickCountsItsUpdates : Prop :=
  ∀ (s : State) (n : BitVec 64), ∃ t, exec (.tick (.unsigned n)) s = .next t ∧
    t.psg.mclk.toNat = (s.psg.mclk.toNat + n.toNat) % 2 ^ 64 ∧
    t.psg.regs = s.psg.regs ∧
    (∀ c : Channel, t.psg.tone c =
      Tone.update^[(s.psg.mclk.toNat + n.toNat) / 16 - s.psg.mclk.toNat / 16] (s.psg.tone c)) ∧
    t.psg.noise =
      Noise.update^[(s.psg.mclk.toNat + n.toNat) / 16 - s.psg.mclk.toNat / 16] s.psg.noise ∧
    t.psg.env =
      (Env.update false)^[(s.psg.mclk.toNat + n.toNat) / 256 - s.psg.mclk.toNat / 256] s.psg.env

/-- R259: a TICK may be split anywhere. -/
def Obligations.TickIsAdditive : Prop :=
  ∀ (s : State) (a b : BitVec 64), a.toNat + b.toNat < 2 ^ 64 → ∃ t u,
    runOps [.tick (.unsigned a), .tick (.unsigned b)] s = .next t ∧
    exec (.tick (.unsigned (a + b))) s = .next u ∧ t.psg = u.psg

/-! ## Whole-state operations -/

/-- R272, R274: the map has the 36 fields of the table (decision D18 of the spec) with the current values, and nothing
is written.  That the map is a list in the table's order is the model's choice (assumption log entry 6). -/
def Obligations.ExportGivesEveryField : Prop :=
  ∀ s : State, ∃ m, exec .exportState s = .next { s with reply := .fields m } ∧
    m.map (fun e => e.1.code) = List.range 36 ∧ m.all (fun e => e.1.wf) = true ∧ FieldMap.Describes m s.psg

/-- R273: a map with every field in range replaces every state element (decision D18 of the spec). -/
def Obligations.ImportReplacesEveryElement : Prop :=
  ∀ (s : State) (m : FieldMap), FieldMap.Importable m → ∃ p,
    exec (.importState m) s = .next { s with psg := p, reply := .done } ∧ FieldMap.Describes m p

/-- R273, R275, R293: any other map is rejected, naming the first field, in the table's order, that is missing or out
of range (decisions D16, D18 of the spec), and nothing changes.  The order of the fields that share a row of the table
is the model's reading (assumption log entry 6). -/
def Obligations.ImportRejectsTheFirstBadField : Prop :=
  ∀ (s : State) (m : FieldMap), ¬ FieldMap.Importable m → ∃ f, f ∈ mapFields ∧
    exec (.importState m) s = .next { s with reply := .error (.eImport f) } ∧
    ¬ FieldMap.has m f (fieldRange f).1 (fieldRange f).2 ∧
    (∀ g ∈ mapFields, g.code < f.code → FieldMap.has m g (fieldRange g).1 (fieldRange g).2)

/-- R276: an export imported anywhere gives back the same hardware state; PeriodsPositive is R40 (a), which every step
keeps (StepKeepsPeriodsPositive).  That the map is one a request can carry speaks of the model's own canonical form and
request bytes (assumption log entries 3 and 6). -/
def Obligations.ExportThenImportRestoresTheState : Prop :=
  ∀ s u : State, s.psg.PeriodsPositive → ∃ m,
    exec .exportState s = .next { s with reply := .fields m } ∧
    exec (.importState m) u = .next { u with psg := s.psg, reply := .done } ∧
    (Instr.importState m).WellFormed

/-- R103: each pseudo-operation completes as its expansion does. -/
def Obligations.PseudoOperationsAreTheirExpansions : Prop :=
  (∀ (s : State) (c : Channel) (p : BitVec 12), ∃ t,
    exec (.wtp c p) s = .next t ∧
    runOps [.writeReg (BitVec.ofNat 8 (2 * c.num)) (BitVec.ofNat 8 (p.toNat &&& 0xFF)),
      .writeReg (BitVec.ofNat 8 (2 * c.num + 1)) (BitVec.ofNat 8 (p.toNat >>> 8))] s = .next t) ∧
  (∀ (s : State) (p : BitVec 16), ∃ t,
    exec (.wep p) s = .next t ∧
    runOps [.writeReg 11 (BitVec.ofNat 8 (p.toNat &&& 0xFF)), .writeReg 12 (BitVec.ofNat 8 (p.toNat >>> 8))] s
      = .next t) ∧
  (∀ (s : State) (k : BitVec 60), ∃ t,
    exec (.tu k) s = .next t ∧ exec (.tick (.unsigned (BitVec.ofNat 64 (16 * k.toNat)))) s = .next t) ∧
  (∀ (s : State) (k : BitVec 56), ∃ t,
    exec (.eu k) s = .next t ∧ exec (.tick (.unsigned (BitVec.ofNat 64 (256 * k.toNat)))) s = .next t)

/-! ## Whole-machine rules -/

/-- R295, R290: whoever reports an error has changed nothing, and each error has only the operation and the cause that
the table of R290 gives it (decision D16 of the spec).  That an error is a reply is assumption log entries 2, 10. -/
def Obligations.ErrorsChangeNothing : Prop :=
  ∀ (i : Instr) (s t : State) (e : HwError), exec i s = .next t → t.reply = .error e →
    t = { s with reply := .error e } ∧
    ((∃ a v, i = .writeReg a v ∧ 15 < a.toNat ∧ e = .eAddr a) ∨
     (∃ a, i = .readReg a ∧ 15 < a.toNat ∧ e = .eAddr a) ∨
     (∃ n, i = .tick (.signed n) ∧ n.toInt < 0 ∧ e = .eArg n.toInt) ∨
     (∃ m f, i = .importState m ∧ ¬ FieldMap.Importable m ∧ e = .eImport f))

/-- R294: these operations complete without an error in every state. -/
def Obligations.TheseOperationsCannotFail : Prop :=
  ∀ (i : Instr) (s : State), cannotFail i = true → ∃ t, exec i s = .next t ∧ ∀ e, t.reply ≠ .error e

/-- R276, R290, R296: the effect and the reply of every operation are a function of the hardware state alone.  R290: an
operation completes or reports an error; that an error is a next state with a reply is the model's reading (assumption
log entry 10), and that the pending requests stay and no earlier reply is read is its ports' (entry 2). -/
def Obligations.ResultDependsOnHardwareStateOnly : Prop :=
  ∀ (i : Instr) (s u : State), s.psg = u.psg → ∃ p r,
    exec i s = .next { s with psg := p, reply := r } ∧ exec i u = .next { u with psg := p, reply := r }

/-- R41, R65, R234: reads write nothing; TICK writes no register cell, no period and no shape; and only a write, RESET
or IMPORT_STATE changes a cell. -/
def Obligations.WhoMutatesWhat : Prop :=
  ∀ (i : Instr) (s t : State), exec i s = .next t →
    (onlyReads i = true → t.psg = s.psg) ∧
    (runsCycles i = true → (∀ c : Channel, (t.psg.tone c).period = (s.psg.tone c).period) ∧
      t.psg.noise.period = s.psg.noise.period ∧ t.psg.env.period = s.psg.env.period ∧
      t.psg.env.shape = s.psg.env.shape) ∧
    (isWrite i = false → writesAll i = false → t.psg.regs = s.psg.regs)

/-- R37, R260: the clock is written by the master cycles, RESET and IMPORT_STATE, and by nothing else. -/
def Obligations.OnlyMasterCyclesMoveTheClock : Prop :=
  ∀ (i : Instr) (s t : State), runsCycles i = false → writesAll i = false → exec i s = .next t →
    t.psg.mclk = s.psg.mclk

/-! ## Invariants -/

/-- R40 and R51: the state after reset meets the invariants. -/
def Obligations.ResetMeetsTheInvariants : Prop :=
  State.reset.psg.PeriodsPositive ∧ State.reset.psg.Consistent

/-- R40 (a), from R22: no step, whatever the request, leaves a period of 0. -/
def Obligations.StepKeepsPeriodsPositive : Prop :=
  ∀ s t : State, s.psg.PeriodsPositive → step s = .next t → t.psg.PeriodsPositive

/-- R40 (e): every host operation but IMPORT_STATE keeps periods and shape what the registers give, and the LFSR
non-zero. -/
def Obligations.HostOperationsKeepConsistency : Prop :=
  ∀ (i : Instr) (s t : State), isInternal i = false → (∀ m, i ≠ .importState m) →
    s.psg.Consistent → exec i s = .next t → t.psg.Consistent

/-! ## Requests -/

/-- The model's fetch (assumption log entry 2): a decoded request is run with the bytes after it left pending, bytes
that are no request are refused, and with none pending nothing happens (R304). -/
def Obligations.StepRunsTheDecodedRequest : Prop :=
  (∀ (s : State) (i : Instr) (rest : List Byte), decode s.requests = .ok (i, rest) →
    step s = exec i { s with requests := rest }) ∧
  (∀ (s : State) (e : DecodeError), s.requests ≠ [] → decode s.requests = .error e →
    step s = .refused (.malformedRequest e)) ∧
  (∀ s : State, s.requests = [] → step s = .next s)

/-- A table word that decodes runs as the next step, in every state. -/
def Obligations.PlacedTableWordRunsNext : Prop :=
  ∀ (s : State) (nbits w : Nat) (i : Instr), decodeTableWord nbits w = some i →
    step (s.withFetchWord nbits w) = exec i s

/-- R81, R82, R98, R100: words written out from the spec's encodings decode to their operations. -/
def Obligations.TableWordsDecodeAsWritten : Prop :=
  decodeTableWord 16 0b0000011100111110 = some (.writeR7 0x3E) ∧
  decodeTableWord 16 0b0000110100001110 = some (.writeR13 0x0E) ∧
  decodeTableWord 16 0b0000000011111111 = some (.writeR0 0xFF) ∧
  decodeTableWord 16 0b0001000000000000 = some (.writeReg 16 0) ∧
  decodeTableWord 8 0b00001101 = some (.readReg 13) ∧
  decodeTableWord 8 0b11111101 = some (.shapeD 0xF)

/-- R81: every 16-bit word decodes, and runs as WRITE_REG of its address byte and its value byte. -/
def Obligations.EveryWrWordIsAWrite : Prop :=
  ∀ w, w < 65536 → ∃ i, decodeTableWord 16 w = some i ∧
    ∀ s, exec i s = exec (.writeReg (BitVec.ofNat 8 (w / 256)) (BitVec.ofNat 8 (w % 256))) s

/-- Every well-formed operation is read back from its request, with every operand at every value, whatever follows. -/
def Obligations.DecodeOfEncodeIsTheOperation : Prop :=
  ∀ (i : Instr) (rest : List Byte), i.WellFormed → decode (encode i ++ rest) = .ok (i, rest)

/-- Whatever bytes are decoded, the operation is well formed and at least one byte has been used. -/
def Obligations.DecodedOperationsAreWellFormed : Prop :=
  ∀ (bs rest : List Byte) (i : Instr), decode bs = .ok (i, rest) →
    i.WellFormed ∧ ∃ used, used ≠ [] ∧ bs = used ++ rest
end

