-- ==== Sys2Proof/Laws/State.lean ====
section
/-! SUPPORT. What each update of the state leaves in each field. -/

namespace Sys2Proof.Machine

theorem Psg.setReg_regs (p : Psg) (a : Fin 16) (v : Byte) : (p.setReg a v).regs = p.regs.set a v := rfl
@[simp] theorem Psg.setReg_toneA (p : Psg) (a : Fin 16) (v : Byte) : (p.setReg a v).toneA = p.toneA := rfl
@[simp] theorem Psg.setReg_toneB (p : Psg) (a : Fin 16) (v : Byte) : (p.setReg a v).toneB = p.toneB := rfl
@[simp] theorem Psg.setReg_toneC (p : Psg) (a : Fin 16) (v : Byte) : (p.setReg a v).toneC = p.toneC := rfl
@[simp] theorem Psg.setReg_noise (p : Psg) (a : Fin 16) (v : Byte) : (p.setReg a v).noise = p.noise := rfl
@[simp] theorem Psg.setReg_env (p : Psg) (a : Fin 16) (v : Byte) : (p.setReg a v).env = p.env := rfl
@[simp] theorem Psg.setReg_mclk (p : Psg) (a : Fin 16) (v : Byte) : (p.setReg a v).mclk = p.mclk := rfl
@[simp] theorem Psg.setReg_tone (p : Psg) (a : Fin 16) (v : Byte) (c : Channel) :
    (p.setReg a v).tone c = p.tone c := by cases c <;> rfl

@[simp] theorem Psg.setReg_reg_same (p : Psg) (a : Fin 16) (v : Byte) : (p.setReg a v).reg a = v := by
  simp [Psg.setReg, Psg.reg]

theorem Psg.setReg_reg_other (p : Psg) (a b : Fin 16) (v : Byte) (h : b ≠ a) :
    (p.setReg a v).reg b = p.reg b := by
  have h' : a.val ≠ b.val := fun e => h (Fin.ext e.symm)
  simp [Psg.setReg, Psg.reg, Vector.getElem_set_ne, h']

theorem Psg.setReg_reg (p : Psg) (a b : Fin 16) (v : Byte) :
    (p.setReg a v).reg b = if b = a then v else p.reg b := by
  split
  · next h => subst h; simp
  · next h => exact p.setReg_reg_other a b v h

@[simp] theorem Psg.setTone_regs (p : Psg) (c : Channel) (t : Tone) : (p.setTone c t).regs = p.regs := by
  cases c <;> rfl
@[simp] theorem Psg.setTone_reg (p : Psg) (c : Channel) (t : Tone) (a : Fin 16) :
    (p.setTone c t).reg a = p.reg a := by cases c <;> rfl
@[simp] theorem Psg.setTone_noise (p : Psg) (c : Channel) (t : Tone) : (p.setTone c t).noise = p.noise := by
  cases c <;> rfl
@[simp] theorem Psg.setTone_env (p : Psg) (c : Channel) (t : Tone) : (p.setTone c t).env = p.env := by
  cases c <;> rfl
@[simp] theorem Psg.setTone_mclk (p : Psg) (c : Channel) (t : Tone) : (p.setTone c t).mclk = p.mclk := by
  cases c <;> rfl
@[simp] theorem Psg.setTone_tone_same (p : Psg) (c : Channel) (t : Tone) : (p.setTone c t).tone c = t := by
  cases c <;> rfl

theorem Psg.setTone_tone (p : Psg) (c d : Channel) (t : Tone) :
    (p.setTone c t).tone d = if d = c then t else p.tone d := by
  cases c <;> cases d <;> rfl

/-- The integer reading of a cell is the byte's. -/
theorem Psg.cell_eq (p : Psg) (a : Fin 16) : p.cell a.val = (p.reg a).toNat := by
  simp [Psg.cell, Psg.reg, List.getD_eq_getElem?_getD]

/-- A state of the hardware is its elements (R20). -/
theorem Psg.eq_of_fields {p q : Psg} (hr : ∀ a, p.reg a = q.reg a) (ht : ∀ c, p.tone c = q.tone c)
    (hn : p.noise = q.noise) (he : p.env = q.env) (hm : p.mclk = q.mclk) : p = q := by
  have hA := ht .A
  have hB := ht .B
  have hC := ht .C
  have hregs : p.regs = q.regs := Vector.ext fun i hi => hr ⟨i, hi⟩
  cases p; cases q
  simp only [Psg.tone] at hA hB hC
  simp_all

/-- A completed operation changes the hardware and the reply; the pending requests stay. -/
@[simp] theorem State.complete_eq (s : State) (p : Psg) (r : Reply) :
    s.complete p r = .next { s with psg := p, reply := r } := rfl

/-- An operation that only reads leaves the hardware as it was. -/
@[simp] theorem State.answer_eq (s : State) (r : Reply) : s.answer r = .next { s with reply := r } := rfl

/-- An error leaves the hardware as it was (R295). -/
@[simp] theorem State.raise_eq (s : State) (e : HwError) : s.raise e = .next { s with reply := .error e } := rfl

end Sys2Proof.Machine
end

