-- ==== Sys2Proof/Laws/Operations.lean ====
section
/-! SUPPORT. What each shared operation does: cited in proofs in place of its definition. -/

namespace Sys2Proof.Machine

/-! ### Addresses and clamps -/

theorem cellOf_some {a : Byte} (h : a.toNat < 16) : cellOf a = some ⟨a.toNat, h⟩ := dif_pos h

theorem cellOf_none {a : Byte} (h : ¬ a.toNat < 16) : cellOf a = none := dif_neg h

theorem clamp1_ne_zero {w : Nat} (hw : 0 < w) (v : BitVec w) : clamp1 v ≠ 0 := by
  unfold clamp1
  split
  · intro h
    have h1 := congrArg BitVec.toNat h
    simp only [BitVec.ofNat_eq_ofNat, BitVec.toNat_ofNat] at h1
    have := Nat.one_lt_two_pow_iff.mpr (Nat.pos_iff_ne_zero.mp hw)
    rw [Nat.mod_eq_of_lt this] at h1
    simp at h1
  · assumption

/-- `clamp1` is the spec's `max(1, v)` (R8). -/
theorem clamp1_toNat {w : Nat} (hw : 0 < w) (v : BitVec w) : (clamp1 v).toNat = max 1 v.toNat := by
  unfold clamp1
  have h1 := Nat.one_lt_two_pow_iff.mpr (Nat.pos_iff_ne_zero.mp hw)
  split
  · next h => subst h; simp [Nat.mod_eq_of_lt h1]
  · next h =>
    have : v.toNat ≠ 0 := fun e => h (BitVec.eq_of_toNat_eq (by simpa using e))
    omega

@[simp] theorem fires_iff {w : Nat} (k : BitVec w) : fires k = true ↔ k.toNat ≤ 1 := by simp [fires]

/-! ### The assembled fields as the spec's integer formulas -/

/-- R93 with the clamp of R22. -/
theorem clamp1_tone (coarse fine : Byte) :
    clamp1 (lowNibble coarse ++ fine : BitVec 12)
      = BitVec.ofNat 12 (max 1 (((coarse.toNat &&& 0xF) <<< 8) ||| fine.toNat)) := by
  have hb : (lowNibble coarse ++ fine : BitVec 12).toNat = ((coarse.toNat &&& 0xF) <<< 8) ||| fine.toNat := by
    rw [BitVec.toNat_append, lowNibble, BitVec.extractLsb'_toNat, Nat.shiftRight_zero,
      ← Nat.and_two_pow_sub_one_eq_mod]
  have h := (lowNibble coarse ++ fine : BitVec 12).isLt
  apply BitVec.eq_of_toNat_eq
  rw [clamp1_toNat (by decide)]
  rw [hb] at h ⊢
  rw [BitVec.toNat_ofNat, Nat.mod_eq_of_lt (by omega)]

/-- R94 with the clamp of R27. -/
theorem clamp1_noise (v : Byte) : clamp1 (v.extractLsb' 0 5) = BitVec.ofNat 5 (max 1 (v.toNat &&& 0x1F)) := by
  revert v; decide +kernel

/-- R95 with the clamp of R30. -/
theorem clamp1_env (coarse fine : Byte) :
    clamp1 (coarse ++ fine : BitVec 16) = BitVec.ofNat 16 (max 1 ((coarse.toNat <<< 8) ||| fine.toNat)) := by
  have h := (coarse ++ fine : BitVec 16).isLt
  apply BitVec.eq_of_toNat_eq
  rw [clamp1_toNat (by decide)]
  rw [BitVec.toNat_append] at h ⊢
  rw [BitVec.toNat_ofNat, Nat.mod_eq_of_lt (by omega)]

/-- R96. -/
theorem lowNibble_eq (v : Byte) : lowNibble v = BitVec.ofNat 4 (v.toNat &&& 0xF) := by
  revert v; decide +kernel

theorem attackBit_lowNibble (v : Byte) : attackBit (lowNibble v) = v.toNat.testBit 2 := by
  revert v; decide +kernel

/-! ### Writes -/

/-- R111, R113, R115. -/
theorem writeCell_fine (c : Channel) (v : Byte) (p : Psg) :
    writeCell (fineReg c) v p = (p.setReg (fineReg c) v).setTone c
      { p.tone c with period := clamp1 (lowNibble (p.reg (coarseReg c)) ++ v) } := by
  cases c <;>
    simp [writeCell, writeEffect, setTonePeriod, tonePeriodField, fineReg, coarseReg, Psg.setReg_reg]

/-- R112, R114, R116. -/
theorem writeCell_coarse (c : Channel) (v : Byte) (p : Psg) :
    writeCell (coarseReg c) v p = (p.setReg (coarseReg c) v).setTone c
      { p.tone c with period := clamp1 (lowNibble v ++ p.reg (fineReg c)) } := by
  cases c <;>
    simp [writeCell, writeEffect, setTonePeriod, tonePeriodField, fineReg, coarseReg, Psg.setReg_reg]

/-- R117. -/
theorem writeCell_six (v : Byte) (p : Psg) :
    writeCell 6 v p =
      { p.setReg 6 v with noise := { p.noise with period := clamp1 (v.extractLsb' 0 5) } } := by
  simp [writeCell, writeEffect, setNoisePeriod, noisePeriodField]

/-- R122. -/
theorem writeCell_eleven (v : Byte) (p : Psg) :
    writeCell 11 v p = { p.setReg 11 v with env := { p.env with period := clamp1 (p.reg 12 ++ v) } } := by
  simp [writeCell, writeEffect, setEnvPeriod, envPeriodField, Psg.setReg_reg]

/-- R123. -/
theorem writeCell_twelve (v : Byte) (p : Psg) :
    writeCell 12 v p = { p.setReg 12 v with env := { p.env with period := clamp1 (v ++ p.reg 11) } } := by
  simp [writeCell, writeEffect, setEnvPeriod, envPeriodField, Psg.setReg_reg]

/-- R124. -/
theorem writeCell_thirteen (v : Byte) (p : Psg) :
    writeCell 13 v p = { p.setReg 13 v with env := p.env.restart (lowNibble v) } := by
  simp [writeCell, writeEffect, setEnvShape, shapeField]

/-- R118 to R121, R125, R126: a store and no side effect. -/
theorem writeCell_plain (a : Fin 16) (h : a ∈ [7, 8, 9, 10, 14, 15]) (v : Byte) (p : Psg) :
    writeCell a v p = p.setReg a v := by
  simp only [List.mem_cons, List.not_mem_nil, or_false] at h
  obtain rfl | rfl | rfl | rfl | rfl | rfl := h <;> rfl

/-- A write never touches the clock, a counter, an output latch or the LFSR (R110). -/
theorem writeCell_mclk (a : Fin 16) (v : Byte) (p : Psg) : (writeCell a v p).mclk = p.mclk := by
  unfold writeCell writeEffect
  split <;> simp [setTonePeriod, setNoisePeriod, setEnvPeriod, setEnvShape]

theorem writeCell_noise_lfsr (a : Fin 16) (v : Byte) (p : Psg) :
    (writeCell a v p).noise.lfsr = p.noise.lfsr ∧ (writeCell a v p).noise.counter = p.noise.counter ∧
      (writeCell a v p).noise.out = p.noise.out := by
  unfold writeCell writeEffect
  split <;> simp [setTonePeriod, setNoisePeriod, setEnvPeriod, setEnvShape]

/-- The side effect of a write stores no cell: the register file is the store's. -/
theorem writeCell_regs (a : Fin 16) (v : Byte) (p : Psg) : (writeCell a v p).regs = (p.setReg a v).regs := by
  unfold writeCell writeEffect
  split <;> simp [setTonePeriod, setNoisePeriod, setEnvPeriod, setEnvShape]

/-! ### Generators -/

theorem Tone.update_fires {t : Tone} (h : t.counter.toNat ≤ 1) :
    t.update = { t with out := !t.out, counter := t.period } := if_pos (by simpa using h)

theorem Tone.update_counts {t : Tone} (h : ¬ t.counter.toNat ≤ 1) :
    t.update = { t with counter := t.counter - 1 } := if_neg (by simpa using h)

@[simp] theorem Tone.update_period (t : Tone) : t.update.period = t.period := by
  unfold Tone.update; split <;> rfl

theorem Noise.update_fires {n : Noise} (h : n.counter.toNat ≤ 1) :
    n.update = { n with lfsr := lfsrStep n.lfsr, out := (lfsrStep n.lfsr).getLsbD 0, counter := n.period } :=
  if_pos (by simpa using h)

theorem Noise.update_counts {n : Noise} (h : ¬ n.counter.toNat ≤ 1) :
    n.update = { n with counter := n.counter - 1 } := if_neg (by simpa using h)

@[simp] theorem Noise.update_period (n : Noise) : n.update.period = n.period := by
  unfold Noise.update; split <;> rfl

theorem Env.update_fires {flip : Bool} {e : Env} (h : e.counter.toNat ≤ 1) :
    e.update flip = { e.step flip with counter := e.period } := if_pos (by simpa using h)

theorem Env.update_counts {flip : Bool} {e : Env} (h : ¬ e.counter.toNat ≤ 1) :
    e.update flip = { e with counter := e.counter - 1 } := if_neg (by simpa using h)

/-- An envelope step moves the level and the two flags; period, counter and shape stay (R183). -/
@[simp] theorem Env.step_period (flip : Bool) (e : Env) : (e.step flip).period = e.period := by
  unfold Env.step Env.boundaryEvent; repeat' split
  all_goals rfl

@[simp] theorem Env.step_counter (flip : Bool) (e : Env) : (e.step flip).counter = e.counter := by
  unfold Env.step Env.boundaryEvent; repeat' split
  all_goals rfl

@[simp] theorem Env.step_shape (flip : Bool) (e : Env) : (e.step flip).shape = e.shape := by
  unfold Env.step Env.boundaryEvent; repeat' split
  all_goals rfl

theorem Env.step_holding {flip : Bool} {e : Env} (h : e.holding = true) : e.step flip = e := if_pos h

@[simp] theorem Env.update_period (flip : Bool) (e : Env) : (e.update flip).period = e.period := by
  unfold Env.update; split <;> simp

@[simp] theorem Env.update_shape (flip : Bool) (e : Env) : (e.update flip).shape = e.shape := by
  unfold Env.update; split <;> simp

end Sys2Proof.Machine
end

