-- ==== Sys2Proof/Laws/Requests.lean ====
section
/-! SUPPORT. The byte codec: each operand is read back as it was written. -/

namespace Sys2Proof

theorem takeLE_putLE (n x : Nat) (rest : List Byte) :
    takeLE n (putLE n x ++ rest) = .ok (x % 256 ^ n, rest) := by
  induction n generalizing x with
  | zero => simp [takeLE, putLE, Nat.mod_one]
  | succ n ih =>
    simp only [putLE, List.cons_append, takeLE, ih, BitVec.toNat_ofNat]
    congr 2
    rw [show (2 : Nat) ^ 8 = 256 from rfl, Nat.pow_succ, Nat.mul_comm (256 ^ n) 256, Nat.mod_mul]

theorem takeBits_putBits {w n : Nat} (h : w ≤ 8 * n) (v : BitVec w) (rest : List Byte) :
    takeBits w n (putBits n v ++ rest) = .ok (v, rest) := by
  have hv : v.toNat < 256 ^ n :=
    Nat.lt_of_lt_of_le v.isLt (by rw [show (256 : Nat) = 2 ^ 8 from rfl, ← Nat.pow_mul]; exact Nat.pow_le_pow_right (by omega) h)
  simp [takeBits, putBits, takeLE_putLE, Nat.mod_eq_of_lt hv, v.isLt]

theorem takeChannel_putChannel (c : Channel) (rest : List Byte) :
    takeChannel (putChannel c :: rest) = .ok (c, rest) := by
  cases c <;> rfl

theorem Field.code_lt (f : Field) : f.code < 256 := by
  cases f <;> simp [Field.code]
  case reg a => omega
  case other b => have := b.isLt; omega
  all_goals (rename_i c; cases c <;> decide)

/-- A key byte names the field it was written from. -/
theorem fieldOfCode_code (f : Field) (h : f.wf = true) : fieldOfCode (BitVec.ofNat 8 f.code) = f := by
  cases f with
  | reg a => revert a; decide
  | tonePeriod c => cases c <;> rfl
  | toneCounter c => cases c <;> rfl
  | toneOut c => cases c <;> rfl
  | noiseLfsr => rfl
  | noisePeriod => rfl
  | noiseCounter => rfl
  | noiseOut => rfl
  | envPeriod => rfl
  | envCounter => rfl
  | envLevel => rfl
  | envShape => rfl
  | envHolding => rfl
  | envAttacking => rfl
  | mclk => rfl
  | other b =>
    revert b
    decide +kernel

end Sys2Proof
end

