-- ==== Sys2Proof/Laws/PerInstr.lean ====
section
/-! SUPPORT. Statements about every operation as syntax, one lemma per constructor. -/

namespace Sys2Proof.Laws.RequestFormat

/-- The format byte of each operation (assumption log entry 3). -/
def formatByte : Instr → Byte
  | .writeR0 _ | .writeR1 _ | .writeR2 _ | .writeR3 _ | .writeR4 _ | .writeR5 _ | .writeR6 _ | .writeR7 _ => 0
  | .writeR8 _ | .writeR9 _ | .writeR10 _ | .writeR11 _ | .writeR12 _ | .writeR13 _ | .writeR14 _ | .writeR15 _ => 0
  | .writeReg _ _ => 8
  | .readReg _ => 1
  | .tick _ => 2
  | .sample | .reset | .exportState | .getLfsrState => 3
  | .importState _ => 4
  | .toneSetPeriod _ | .toneUpdate _ | .toneOut _ | .toneReset _ => 5
  | .noiseSetPeriod | .noiseUpdate | .lfsrStep _ | .noiseOut | .noiseReset => 5
  | .envSetPeriod | .envSetShape | .envUpdate | .envStep | .envLevel | .envReset => 5
  | .volLookup _ | .mixActive _ | .mixLevel _ | .mixChannel _ | .mixSum | .prescaleCycle => 5
  | .shape0 _ | .shape1 _ | .shape2 _ | .shape3 _ | .shape4 _ | .shape5 _ | .shape6 _ | .shape7 _ => 6
  | .shape8 _ | .shape9 _ | .shapeA _ | .shapeB _ | .shapeC _ | .shapeD _ | .shapeE _ | .shapeF _ => 6
  | .wtp _ _ | .wep _ | .tu _ | .eu _ => 7

/-- A request begins with its format byte and goes on with at least one operand byte. -/
def Statement (i : Instr) : Prop := ∃ b bs, encode i = formatByte i :: b :: bs

theorem writeR0 (v : Byte) : Statement (.writeR0 v) := ⟨_, _, rfl⟩
theorem writeR1 (v : Byte) : Statement (.writeR1 v) := ⟨_, _, rfl⟩
theorem writeR2 (v : Byte) : Statement (.writeR2 v) := ⟨_, _, rfl⟩
theorem writeR3 (v : Byte) : Statement (.writeR3 v) := ⟨_, _, rfl⟩
theorem writeR4 (v : Byte) : Statement (.writeR4 v) := ⟨_, _, rfl⟩
theorem writeR5 (v : Byte) : Statement (.writeR5 v) := ⟨_, _, rfl⟩
theorem writeR6 (v : Byte) : Statement (.writeR6 v) := ⟨_, _, rfl⟩
theorem writeR7 (v : Byte) : Statement (.writeR7 v) := ⟨_, _, rfl⟩
theorem writeR8 (v : Byte) : Statement (.writeR8 v) := ⟨_, _, rfl⟩
theorem writeR9 (v : Byte) : Statement (.writeR9 v) := ⟨_, _, rfl⟩
theorem writeR10 (v : Byte) : Statement (.writeR10 v) := ⟨_, _, rfl⟩
theorem writeR11 (v : Byte) : Statement (.writeR11 v) := ⟨_, _, rfl⟩
theorem writeR12 (v : Byte) : Statement (.writeR12 v) := ⟨_, _, rfl⟩
theorem writeR13 (v : Byte) : Statement (.writeR13 v) := ⟨_, _, rfl⟩
theorem writeR14 (v : Byte) : Statement (.writeR14 v) := ⟨_, _, rfl⟩
theorem writeR15 (v : Byte) : Statement (.writeR15 v) := ⟨_, _, rfl⟩
theorem writeReg (a v : Byte) : Statement (.writeReg a v) := ⟨_, _, rfl⟩
theorem readReg (a : Byte) : Statement (.readReg a) := ⟨_, _, rfl⟩
theorem tick (n : CycleCount) : Statement (.tick n) := by cases n <;> exact ⟨_, _, rfl⟩
theorem sample : Statement .sample := ⟨_, _, rfl⟩
theorem reset : Statement .reset := ⟨_, _, rfl⟩
theorem exportState : Statement .exportState := ⟨_, _, rfl⟩
theorem importState (m : FieldMap) : Statement (.importState m) := ⟨_, _, rfl⟩
theorem getLfsrState : Statement .getLfsrState := ⟨_, _, rfl⟩
theorem toneSetPeriod (c : Channel) : Statement (.toneSetPeriod c) := ⟨_, _, rfl⟩
theorem toneUpdate (c : Channel) : Statement (.toneUpdate c) := ⟨_, _, rfl⟩
theorem toneOut (c : Channel) : Statement (.toneOut c) := ⟨_, _, rfl⟩
theorem toneReset (c : Channel) : Statement (.toneReset c) := ⟨_, _, rfl⟩
theorem noiseSetPeriod : Statement .noiseSetPeriod := ⟨_, _, rfl⟩
theorem noiseUpdate : Statement .noiseUpdate := ⟨_, _, rfl⟩
theorem lfsrStep (x : BitVec 17) : Statement (.lfsrStep x) := ⟨_, _, rfl⟩
theorem noiseOut : Statement .noiseOut := ⟨_, _, rfl⟩
theorem noiseReset : Statement .noiseReset := ⟨_, _, rfl⟩
theorem envSetPeriod : Statement .envSetPeriod := ⟨_, _, rfl⟩
theorem envSetShape : Statement .envSetShape := ⟨_, _, rfl⟩
theorem envUpdate : Statement .envUpdate := ⟨_, _, rfl⟩
theorem envStep : Statement .envStep := ⟨_, _, rfl⟩
theorem envLevel : Statement .envLevel := ⟨_, _, rfl⟩
theorem envReset : Statement .envReset := ⟨_, _, rfl⟩
theorem volLookup (level : BitVec 4) : Statement (.volLookup level) := ⟨_, _, rfl⟩
theorem mixActive (c : Channel) : Statement (.mixActive c) := ⟨_, _, rfl⟩
theorem mixLevel (c : Channel) : Statement (.mixLevel c) := ⟨_, _, rfl⟩
theorem mixChannel (c : Channel) : Statement (.mixChannel c) := ⟨_, _, rfl⟩
theorem mixSum : Statement .mixSum := ⟨_, _, rfl⟩
theorem prescaleCycle : Statement .prescaleCycle := ⟨_, _, rfl⟩
theorem shape0 (x : BitVec 4) : Statement (.shape0 x) := ⟨_, _, rfl⟩
theorem shape1 (x : BitVec 4) : Statement (.shape1 x) := ⟨_, _, rfl⟩
theorem shape2 (x : BitVec 4) : Statement (.shape2 x) := ⟨_, _, rfl⟩
theorem shape3 (x : BitVec 4) : Statement (.shape3 x) := ⟨_, _, rfl⟩
theorem shape4 (x : BitVec 4) : Statement (.shape4 x) := ⟨_, _, rfl⟩
theorem shape5 (x : BitVec 4) : Statement (.shape5 x) := ⟨_, _, rfl⟩
theorem shape6 (x : BitVec 4) : Statement (.shape6 x) := ⟨_, _, rfl⟩
theorem shape7 (x : BitVec 4) : Statement (.shape7 x) := ⟨_, _, rfl⟩
theorem shape8 (x : BitVec 4) : Statement (.shape8 x) := ⟨_, _, rfl⟩
theorem shape9 (x : BitVec 4) : Statement (.shape9 x) := ⟨_, _, rfl⟩
theorem shapeA (x : BitVec 4) : Statement (.shapeA x) := ⟨_, _, rfl⟩
theorem shapeB (x : BitVec 4) : Statement (.shapeB x) := ⟨_, _, rfl⟩
theorem shapeC (x : BitVec 4) : Statement (.shapeC x) := ⟨_, _, rfl⟩
theorem shapeD (x : BitVec 4) : Statement (.shapeD x) := ⟨_, _, rfl⟩
theorem shapeE (x : BitVec 4) : Statement (.shapeE x) := ⟨_, _, rfl⟩
theorem shapeF (x : BitVec 4) : Statement (.shapeF x) := ⟨_, _, rfl⟩
theorem wtp (c : Channel) (p : BitVec 12) : Statement (.wtp c p) := ⟨_, _, rfl⟩
theorem wep (p : BitVec 16) : Statement (.wep p) := ⟨_, _, rfl⟩
theorem tu (k : BitVec 60) : Statement (.tu k) := ⟨_, _, rfl⟩
theorem eu (k : BitVec 56) : Statement (.eu k) := ⟨_, _, rfl⟩

end Sys2Proof.Laws.RequestFormat
end

