-- ==== Sys2Proof/Laws/Prescale.lean ====
section
/-! SUPPORT. The prescaler: what one master cycle leaves in each element, and the plain recursion of TICK. -/

namespace Sys2Proof.Machine

@[simp] theorem runCycles_zero (p : Psg) : runCycles 0 p = p := rfl

@[simp] theorem runCycles_succ (n : Nat) (p : Psg) : runCycles (n + 1) p = runCycles n (prescaleCycle p) := rfl

/-- The number of the master cycle that a cycle from counter `m` is (R251: the counter after its increment). -/
def nextCycle (m : BitVec 64) : Nat := (m + 1).toNat

theorem nextCycle_eq (m : BitVec 64) : nextCycle m = (m.toNat + 1) % 2 ^ 64 := by
  simp [nextCycle, BitVec.toNat_add]

/-- One master cycle as its four cases. -/
theorem prescaleCycle_cases (p : Psg) :
    prescaleCycle p =
      if nextCycle p.mclk % 16 = 0 then
        if nextCycle p.mclk % 256 = 0 then updateEnv (updateToneNoise { p with mclk := p.mclk + 1 })
        else updateToneNoise { p with mclk := p.mclk + 1 }
      else
        if nextCycle p.mclk % 256 = 0 then updateEnv { p with mclk := p.mclk + 1 }
        else { p with mclk := p.mclk + 1 } := by
  by_cases h1 : (p.mclk + 1).toNat % 16 = 0 <;> by_cases h2 : (p.mclk + 1).toNat % 256 = 0 <;>
    simp only [prescaleCycle, nextCycle, toneDivider, envDivider, h1, h2, if_true, if_false]

@[simp] theorem prescaleCycle_regs (p : Psg) : (prescaleCycle p).regs = p.regs := by
  rw [prescaleCycle_cases]; split <;> split <;> rfl

@[simp] theorem prescaleCycle_mclk (p : Psg) : (prescaleCycle p).mclk = p.mclk + 1 := by
  rw [prescaleCycle_cases]; split <;> split <;> rfl

theorem prescaleCycle_tone (p : Psg) (c : Channel) :
    (prescaleCycle p).tone c = if nextCycle p.mclk % 16 = 0 then (p.tone c).update else p.tone c := by
  rw [prescaleCycle_cases]; split <;> split <;> cases c <;> rfl

theorem prescaleCycle_noise (p : Psg) :
    (prescaleCycle p).noise = if nextCycle p.mclk % 16 = 0 then p.noise.update else p.noise := by
  rw [prescaleCycle_cases]; split <;> split <;> rfl

theorem prescaleCycle_env (p : Psg) :
    (prescaleCycle p).env
      = if nextCycle p.mclk % 256 = 0 then p.env.update envHoldAltFlip else p.env := by
  rw [prescaleCycle_cases]; split <;> split <;> rfl

@[simp] theorem runCycles_regs (n : Nat) (p : Psg) : (runCycles n p).regs = p.regs := by
  induction n generalizing p with
  | zero => rfl
  | succ n ih => simp [ih]

end Sys2Proof.Machine
end

