-- ==== Sys2Proof/Tests/Slice0.lean ====
section
/-! SUPPORT. Tests: words written out from the spec's encodings, the spec's own vectors (spec/95_test_vectors.md), the
well-formedness checks, and a witness for the hypotheses of every statement. -/

namespace Sys2Proof.Tests

open Sys2Proof.Machine

/-! ### Decoding: table words bit by bit (R81, R82, R84 to R92, R98), then the model's other formats -/

theorem test_decode_tone_writes :
    decodeTableWord 16 0b0000000000110100 = some (.writeR0 0x34) ∧
    decodeTableWord 16 0b0000000100010010 = some (.writeR1 0x12) ∧
    decodeTableWord 16 0b0000001000010000 = some (.writeR2 0x10) ∧
    decodeTableWord 16 0b0000001100010010 = some (.writeR3 0x12) ∧
    decodeTableWord 16 0b0000010000000000 = some (.writeR4 0x00) ∧
    decodeTableWord 16 0b0000010100001111 = some (.writeR5 0x0F) := by decide

theorem test_decode_noise_and_mixer_writes :
    decodeTableWord 16 0b0000011011111111 = some (.writeR6 0xFF) ∧
    decodeTableWord 16 0b0000011100111110 = some (.writeR7 0x3E) ∧
    decodeTableWord 16 0b0000100000001111 = some (.writeR8 0x0F) ∧
    decodeTableWord 16 0b0000100100010000 = some (.writeR9 0x10) ∧
    decodeTableWord 16 0b0000101000000000 = some (.writeR10 0x00) := by decide

theorem test_decode_env_and_io_writes :
    decodeTableWord 16 0b0000101100000010 = some (.writeR11 0x02) ∧
    decodeTableWord 16 0b0000110000010000 = some (.writeR12 0x10) ∧
    decodeTableWord 16 0b0000110100001110 = some (.writeR13 0x0E) ∧
    decodeTableWord 16 0b0000111010100101 = some (.writeR14 0xA5) ∧
    decodeTableWord 16 0b0000111101011010 = some (.writeR15 0x5A) := by decide

/-- An address with any of bits 7..4 set is no register (R81, R99): WRITE_REG, which raises E_ADDR. -/
theorem test_decode_illegal_address :
    decodeTableWord 16 0b0001000000000000 = some (.writeReg 16 0) ∧
    decodeTableWord 16 0b1111111100000111 = some (.writeReg 255 7) := by decide

theorem test_decode_read :
    decodeTableWord 8 0b00000000 = some (.readReg 0) ∧ decodeTableWord 8 0b00001111 = some (.readReg 15) := by decide

/-- Shape bytes with an ignored bit set, so that they are no RD word (assumption log entry 4). -/
theorem test_decode_shapes_falling :
    decodeTableWord 8 0b00010000 = some (.shape0 1) ∧ decodeTableWord 8 0b00100001 = some (.shape1 2) ∧
    decodeTableWord 8 0b01000010 = some (.shape2 4) ∧ decodeTableWord 8 0b10000011 = some (.shape3 8) ∧
    decodeTableWord 8 0b11111000 = some (.shape8 15) ∧ decodeTableWord 8 0b00011001 = some (.shape9 1) ∧
    decodeTableWord 8 0b00101010 = some (.shapeA 2) ∧ decodeTableWord 8 0b01001011 = some (.shapeB 4) := by decide

theorem test_decode_shapes_rising :
    decodeTableWord 8 0b00010100 = some (.shape4 1) ∧ decodeTableWord 8 0b00100101 = some (.shape5 2) ∧
    decodeTableWord 8 0b01000110 = some (.shape6 4) ∧ decodeTableWord 8 0b10000111 = some (.shape7 8) ∧
    decodeTableWord 8 0b11111100 = some (.shapeC 15) ∧ decodeTableWord 8 0b11111101 = some (.shapeD 15) ∧
    decodeTableWord 8 0b00101110 = some (.shapeE 2) ∧ decodeTableWord 8 0b01001111 = some (.shapeF 4) := by decide

/-- Inside the SH format a byte with no ignored bit set is a shape. -/
theorem test_decode_shape_request : decode [6, 0x0D] = .ok (.shapeD 0, []) := by decide

theorem test_decode_host_requests :
    decode [8, 3, 0x12, 9] = .ok (.writeReg 3 0x12, [9]) ∧ decode [1, 16] = .ok (.readReg 16, []) ∧
    decode [2, 0, 16, 1, 0, 0, 0, 0, 0, 0] = .ok (.tick (.unsigned 272), []) ∧
    decode [2, 1, 255, 255, 255, 255, 255, 255, 255, 255] = .ok (.tick (.signed (-1)), []) ∧
    decode [3, 0] = .ok (.sample, []) ∧ decode [3, 1] = .ok (.reset, []) ∧
    decode [3, 2] = .ok (.exportState, []) ∧ decode [3, 3] = .ok (.getLfsrState, []) ∧
    decode [4, 1, 0, 31, 255, 255, 255, 255, 255, 255, 255, 255, 255] = .ok (.importState [(.envLevel, -1)], []) := by
  decide

theorem test_decode_tone_and_noise_requests :
    decode [5, 0, 0] = .ok (.toneSetPeriod .A, []) ∧ decode [5, 1, 1] = .ok (.toneUpdate .B, []) ∧
    decode [5, 2, 2] = .ok (.toneOut .C, []) ∧ decode [5, 3, 0] = .ok (.toneReset .A, []) ∧
    decode [5, 4] = .ok (.noiseSetPeriod, []) ∧ decode [5, 5] = .ok (.noiseUpdate, []) ∧
    decode [5, 6, 7, 0, 1] = .ok (.lfsrStep 0x10007, []) ∧ decode [5, 7] = .ok (.noiseOut, []) ∧
    decode [5, 8] = .ok (.noiseReset, []) := by decide

theorem test_decode_env_requests :
    decode [5, 9] = .ok (.envSetPeriod, []) ∧ decode [5, 10] = .ok (.envSetShape, []) ∧
    decode [5, 11] = .ok (.envUpdate, []) ∧ decode [5, 12] = .ok (.envStep, []) ∧
    decode [5, 13] = .ok (.envLevel, []) ∧ decode [5, 14] = .ok (.envReset, []) := by decide

theorem test_decode_mixer_requests :
    decode [5, 15, 9] = .ok (.volLookup 9, []) ∧ decode [5, 16, 0] = .ok (.mixActive .A, []) ∧
    decode [5, 17, 1] = .ok (.mixLevel .B, []) ∧ decode [5, 18, 2] = .ok (.mixChannel .C, []) ∧
    decode [5, 19] = .ok (.mixSum, []) ∧ decode [5, 20] = .ok (.prescaleCycle, []) := by decide

theorem test_decode_pseudo_requests :
    decode [7, 0, 1, 0x34, 0x02] = .ok (.wtp .B 0x234, []) ∧ decode [7, 1, 0xFF, 0x01] = .ok (.wep 511, []) ∧
    decode [7, 2, 3, 0, 0, 0, 0, 0, 0, 0] = .ok (.tu 3, []) ∧
    decode [7, 3, 2, 0, 0, 0, 0, 0, 0, 0] = .ok (.eu 2, []) := by decide

theorem test_decode_rejects_by_name :
    decode [] = .error .empty ∧ decode [0, 7] = .error .truncated ∧ decode [9, 0] = .error (.unknownFormat 9) ∧
    decode [3, 4] = .error (.unknownOperation 4) ∧ decode [5, 1, 3] = .error (.badChannel 3) ∧
    decode [5, 6, 0, 0, 2] = .error .operandTooWide ∧
    decode [4, 2, 0, 1, 0, 0, 0, 0, 0, 0, 0, 0, 0, 0, 0, 0, 0, 0, 0, 0, 0, 0, 0, 0] = .error .badFieldMap ∧
    decodeTableWord 32 0 = none := by decide

/-! ### Well-formedness: one ill-formed term for each check -/

/-- An extra field with the code of a named one. -/
theorem test_wf_extra_field_code : ¬ (Instr.importState [(.other 35, 0)]).WellFormed := by decide

/-- A value that nine bytes cannot hold, above and below. -/
theorem test_wf_value_width :
    ¬ (Instr.importState [(.mclk, 2 ^ 71)]).WellFormed ∧ ¬ (Instr.importState [(.mclk, -(2 ^ 71) - 1)]).WellFormed := by
  decide

/-- A field given twice, and fields out of order. -/
theorem test_wf_rising :
    ¬ (Instr.importState [(.reg 1, 0), (.reg 1, 0)]).WellFormed ∧
    ¬ (Instr.importState [(.mclk, 0), (.reg 1, 0)]).WellFormed := by decide

theorem test_wf_accepts : (Instr.importState [(.reg 1, -5), (.mclk, 0), (.other 36, 1)]).WellFormed := by decide

/-! ### Small states and runs -/

def idle (p : Psg) : State := { psg := p, requests := [], reply := .idle }

/-- The hardware and the reply after a few operations. -/
def after (ops : List Instr) (p : Psg) : Option (Psg × Reply) :=
  match runOps ops (idle p) with
  | .next t => some (t.psg, t.reply)
  | _ => none

def psgAfter (ops : List Instr) : Option Psg := (after ops Psg.atReset).map (·.1)

def replyAfter (ops : List Instr) : Option Reply := (after ops Psg.atReset).map (·.2)

def withEnv (e : Env) : Psg := { Psg.atReset with env := e }

def withNoise (n : Noise) : Psg := { Psg.atReset with noise := n }

/-- A state of the mixer vectors: R[7..10], the tone outputs, the noise output and the level, "given directly". -/
def mixState (r7 r8 r9 r10 : Byte) (a b c n : Bool) (level : BitVec 4) : Psg :=
  { Psg.atReset with
    regs := (((Psg.atReset.regs.set 7 r7).set 8 r8).set 9 r9).set 10 r10
    toneA := { Tone.atReset with out := a }
    toneB := { Tone.atReset with out := b }
    toneC := { Tone.atReset with out := c }
    noise := { Noise.atReset with out := n }
    env := { Env.atReset with level := level } }

/-! ### Register operations (V-REG vectors) -/

/-- V-REG-1. -/
theorem test_write_tone_pair :
    (psgAfter [.writeR0 0x34]).map (·.toneA) = some ⟨52, 0, false⟩ ∧
    (psgAfter [.writeR0 0x34, .writeR1 0x12]).map (·.toneA) = some ⟨564, 0, false⟩ ∧
    replyAfter [.writeR0 0x34, .writeR1 0x12, .readReg 1] = some (.byte 0x12) := by decide

/-- V-REG-2 and the example of R115: a period register of 0 gives period 1. -/
theorem test_write_zero_period :
    (psgAfter [.writeR0 0]).map (·.toneA.period) = some 1 ∧ (psgAfter [.writeR4 0]).map (·.toneC.period) = some 1 ∧
    replyAfter [.writeR0 0, .readReg 0] = some (.byte 0) := by decide

/-- V-REG-3; R113, R114, R116 examples. -/
theorem test_write_largest_periods :
    (psgAfter [.writeR1 0xFF]).map (·.toneA.period) = some 3840 ∧
    (psgAfter [.writeR1 0xFF, .writeR0 0xFF]).map (·.toneA.period) = some 4095 ∧
    (psgAfter [.writeR2 0x34, .writeR3 0x12]).map (·.toneB.period) = some 564 ∧
    (psgAfter [.writeR5 0x0F]).map (·.toneC.period) = some 3840 := by decide

/-- V-REG-4 and X7. -/
theorem test_write_noise_period :
    (psgAfter [.writeR6 0xFF]).map (·.noise.period) = some 31 ∧
    (psgAfter [.writeR6 0x20]).map (·.noise.period) = some 1 ∧
    replyAfter [.writeR6 0x20, .readReg 6] = some (.byte 0x20) := by decide

/-- V-REG-5. -/
theorem test_write_env_period :
    (psgAfter [.writeR12 1]).map (·.env) = some ⟨256, 0, 15, 0, false, false⟩ ∧
    (psgAfter [.writeR12 1, .writeR11 0xFF]).map (·.env.period) = some 511 ∧
    (psgAfter [.writeR11 0xFF, .writeR12 0xFF]).map (·.env.period) = some 65535 := by decide

/-- V-REG-6, V-REG-7. -/
theorem test_write_shape :
    (psgAfter [.writeR13 0x0E]).map (·.env) = some ⟨1, 0, 0, 14, false, true⟩ ∧
    (psgAfter [.writeR13 0xFD]).map (·.env) = some ⟨1, 0, 0, 13, false, true⟩ ∧
    replyAfter [.writeR13 0xFD, .readReg 13] = some (.byte 0xFD) := by decide

/-- V-REG-8: a write of the stored value restarts. -/
theorem test_write_same_shape_restarts :
    (after [.writeR13 0] (withEnv ⟨1, 1, 0, 0, true, false⟩)).map (·.1.env) = some ⟨1, 1, 15, 0, false, false⟩ := by
  decide

/-- V-REG-9, V-REG-12. -/
theorem test_plain_registers :
    replyAfter [.writeR14 0xA5, .readReg 14] = some (.byte 0xA5) ∧
    replyAfter [.writeR15 0x5A, .readReg 15] = some (.byte 0x5A) ∧
    replyAfter [.writeR7 0xC0, .readReg 7] = some (.byte 0xC0) ∧
    replyAfter [.writeR8 0xFF, .readReg 8] = some (.byte 0xFF) ∧
    replyAfter [.writeR9 0x10, .readReg 9] = some (.byte 0x10) ∧
    replyAfter [.writeR10 0x0B, .readReg 10] = some (.byte 0x0B) := by decide

/-- V-REG-10: no wrap to address 0 or 15. -/
theorem test_address_errors :
    after [.writeReg 16 7] Psg.atReset = some (Psg.atReset, .error (.eAddr 16)) ∧
    after [.writeReg 255 7] Psg.atReset = some (Psg.atReset, .error (.eAddr 255)) ∧
    after [.readReg 16] Psg.atReset = some (Psg.atReset, .error (.eAddr 16)) ∧
    (psgAfter [.writeReg 15 7]).map (·.reg 15) = some 7 := by decide

/-! ### Tone and noise (V-TON, V-NOI vectors) -/

/-- V-TON-1, V-TON-2, V-TON-7. -/
theorem test_first_tone_update :
    psgAfter [.tick (.unsigned 15)] = some { Psg.atReset with mclk := 15 } ∧
    (psgAfter [.tick (.unsigned 16)]).map (·.toneB) = some ⟨1, 1, true⟩ ∧
    (psgAfter [.writeR0 100, .tick (.unsigned 16)]).map (·.toneA) = some ⟨100, 100, true⟩ := by decide

/-- V-TON-3: the updates 1 to 3 of period 2. -/
theorem test_tone_updates :
    (psgAfter [.writeR0 2, .toneUpdate .A]).map (·.toneA) = some ⟨2, 2, true⟩ ∧
    (psgAfter [.writeR0 2, .toneUpdate .A, .toneUpdate .A]).map (·.toneA) = some ⟨2, 1, true⟩ ∧
    (psgAfter [.writeR0 2, .toneUpdate .A, .toneUpdate .A, .toneUpdate .A]).map (·.toneA) = some ⟨2, 2, false⟩ := by
  decide

/-- V-HAZ-1: a shorter period does not reload the counter (R326). -/
theorem test_period_write_keeps_counter :
    (psgAfter [.writeR0 5, .tick (.unsigned 32), .writeR0 1]).map (·.toneA) = some ⟨1, 4, true⟩ := by decide

theorem test_tone_internal :
    replyAfter [.toneUpdate .C, .toneOut .C] = some (.bit true) ∧
    (psgAfter [.writeR2 9, .toneUpdate .B, .toneReset .B]).map (·.toneB) = some ⟨1, 0, false⟩ ∧
    (psgAfter [.writeR2 9, .toneReset .B, .toneSetPeriod .B]).map (·.toneB.period) = some 9 := by decide

/-- V-NOI-1. -/
theorem test_lfsr_step :
    lfsrStep 0x1FFFF = 0x0FFFF ∧ lfsrStep 0x00001 = 0x10000 ∧ lfsrStep 0x00008 = 0x10004 ∧
    lfsrStep 0x00009 = 0x00004 ∧ lfsrStep 0x10000 = 0x08000 ∧ lfsrStep 0x0AAAA = 0x15555 ∧
    lfsrStep 0x15555 = 0x1AAAA ∧ lfsrStep 0 = 0 ∧ replyAfter [.lfsrStep 7] = some (.lfsr 0x10003) := by decide

/-- V-NOI-3: the updates 1, 2 and 4 of period 3; and the latch before the first update, V-NOI-7. -/
theorem test_noise_updates :
    (psgAfter [.writeR6 3, .noiseUpdate]).map (·.noise) = some ⟨0xFFFF, 3, 3, true⟩ ∧
    (psgAfter [.writeR6 3, .noiseUpdate, .noiseUpdate]).map (·.noise) = some ⟨0xFFFF, 3, 2, true⟩ ∧
    (psgAfter [.writeR6 3, .noiseUpdate, .noiseUpdate, .noiseUpdate, .noiseUpdate]).map (·.noise)
      = some ⟨0x7FFF, 3, 3, true⟩ ∧
    replyAfter [.noiseOut] = some (.bit false) ∧ replyAfter [.getLfsrState] = some (.lfsr 0x1FFFF) := by decide

/-- V-NOI-6: the LFSR at 0 stays there. -/
theorem test_noise_lock_up :
    (after [.noiseUpdate] (withNoise ⟨0, 1, 1, false⟩)).map (·.1.noise) = some ⟨0, 1, 1, false⟩ := by decide

theorem test_noise_internal :
    (psgAfter [.noiseUpdate, .noiseReset]).map (·.noise) = some ⟨0x1FFFF, 1, 0, false⟩ ∧
    (psgAfter [.writeR6 0x23, .noiseReset, .noiseSetPeriod]).map (·.noise.period) = some 3 := by decide

/-! ### Envelope (V-ENV vectors) -/

/-- V-ENV-5, V-ENV-6, V-ENV-7 and the boundary rows of R183. -/
theorem test_env_step :
    Env.step false ⟨1, 1, 15, 0xC, false, true⟩ = ⟨1, 1, 0, 0xC, false, true⟩ ∧
    Env.step false ⟨1, 1, 15, 0x4, false, true⟩ = ⟨1, 1, 0, 0x4, true, true⟩ ∧
    Env.step false ⟨1, 1, 7, 0x0, false, true⟩ = ⟨1, 1, 8, 0x0, false, true⟩ ∧
    Env.step false ⟨1, 1, 0, 0x8, false, false⟩ = ⟨1, 1, 15, 0x8, false, false⟩ ∧
    Env.step false ⟨1, 1, 0, 0xA, false, false⟩ = ⟨1, 1, 0, 0xA, false, true⟩ ∧
    Env.step false ⟨1, 1, 15, 0xD, false, true⟩ = ⟨1, 1, 15, 0xD, true, true⟩ := by decide

/-- R198, R202: the codes that depend on `ENV_HOLD_ALT_FLIP`. -/
theorem test_env_flip :
    Env.step false ⟨1, 1, 0, 0xB, false, false⟩ = ⟨1, 1, 0, 0xB, true, false⟩ ∧
    Env.step true ⟨1, 1, 0, 0xB, false, false⟩ = ⟨1, 1, 15, 0xB, true, false⟩ ∧
    Env.step true ⟨1, 1, 15, 0xF, false, true⟩ = ⟨1, 1, 0, 0xF, true, true⟩ := by decide

/-- The state at position 40 of the shape table, for a triangle, a sawtooth and a one-shot. -/
theorem test_env_position_40 :
    (Env.step false)^[40] (Env.restart ⟨1, 1, 14, 0, false, false⟩ 0xA) = ⟨1, 1, 7, 0xA, false, false⟩ ∧
    (Env.step false)^[40] (Env.restart ⟨1, 1, 14, 0, false, false⟩ 0xC) = ⟨1, 1, 8, 0xC, false, true⟩ ∧
    (Env.step false)^[40] (Env.restart ⟨1, 1, 14, 0, false, false⟩ 0x5) = ⟨1, 1, 15, 0x5, true, true⟩ := by
  decide +kernel

/-- V-ENV-3: the first step after a shape write waits for the running count. -/
theorem test_env_running_count :
    (after [.shapeC 0, .envUpdate, .envUpdate] (withEnv ⟨5, 3, 14, 0, false, false⟩)).map (·.1.env)
      = some ⟨5, 1, 0, 0xC, false, true⟩ ∧
    (after [.shapeC 0, .envUpdate, .envUpdate, .envUpdate] (withEnv ⟨5, 3, 14, 0, false, false⟩)).map (·.1.env)
      = some ⟨5, 5, 1, 0xC, false, true⟩ := by decide

theorem test_env_internal :
    (psgAfter [.envStep]).map (·.env.level) = some 14 ∧ replyAfter [.envStep, .envLevel] = some (.level 14) ∧
    (psgAfter [.writeR13 5, .envReset]).map (·.env) = some Env.atReset ∧
    (psgAfter [.writeR13 5, .envReset, .envSetShape]).map (·.env) = some ⟨1, 0, 0, 5, false, true⟩ ∧
    (psgAfter [.writeR11 2, .envReset, .envSetPeriod]).map (·.env.period) = some 2 := by decide

/-! ### Mixer (V-MIX vectors) -/

/-- V-MIX-7: the levels and the triple. -/
theorem test_mix_levels :
    (List.map (mixLevel (mixState 0x00 0x0F 0x1F 0xE3 false true true true 7)) [.A, .B, .C]) = [15, 7, 3] ∧
    (List.map (mixActive (mixState 0x00 0x0F 0x1F 0xE3 false true true true 7)) [.A, .B, .C]) = [true, true, true] := by
  decide

theorem test_sample_v_mix_7 :
    replyAfter [] = some .idle ∧
    (after [.sample] (mixState 0x00 0x0F 0x1F 0xE3 false true true true 7)).map (·.2)
      = some (.sample (Config.vol 15) (Config.vol 7) (Config.vol 3)
          ((Config.vol 15 + Config.vol 7 + Config.vol 3) / 3)) := ⟨rfl, rfl⟩

/-- V-MIX-3 (noise on, all tones high, 0xFE), V-MIX-4, V-MIX-5, V-MIX-6. -/
theorem test_mix_enables :
    (List.map (mixActive (mixState 0xFE 0x0F 0 0 true true true true 0)) [.A, .B, .C]) = [true, false, false] ∧
    (List.map (mixActive (mixState 0xFF 0x0F 0x0F 0x0F true true true true 0)) [.A, .B, .C])
      = [false, false, false] ∧
    (List.map (mixActive (mixState 0xF7 0x0F 0x0F 0x0F false false false true 0)) [.A, .B, .C])
      = [true, false, false] ∧
    (List.map (mixActive (mixState 0xF7 0x0F 0x0F 0x0F false false false false 0)) [.A, .B, .C])
      = [false, false, false] := by decide

/-- V-MIX-1 and V-MIX-8: an inactive channel is 0, an active one at level 0 is `VOL[0]`. -/
theorem test_mix_channel_zero :
    replyAfter [.mixChannel .A] = some (.number 0) ∧
    (after [.mixChannel .A] (mixState 0x36 0x10 0 0 true false false false 0)).map (·.2)
      = some (.number (Config.vol 0)) ∧
    replyAfter [.volLookup 15] = some (.number (Config.vol 15)) := ⟨rfl, rfl, rfl⟩

/-! ### Prescaler, whole-state operations, errors (V-TCK, V-RST, V-IMP, V-ERR vectors) -/

/-- V-TCK-3 and V-TCK-7. -/
theorem test_tick_counts :
    (after [.tick (.unsigned 16)] { Psg.atReset with mclk := 10 }).map (fun r => (r.1.mclk, r.1.toneA, r.2))
      = some (26, ⟨1, 1, true⟩, .cycles 16) := by decide

/-- V-TCK-5: the wrap performs both updates; V-TCK-6: no update before it. -/
theorem test_tick_wraps :
    (after [.prescaleCycle] { Psg.atReset with mclk := 0xFFFFFFFFFFFFFFFF }).map
      (fun r => (r.1.mclk, r.1.toneA, r.1.noise, r.1.env))
        = some (0, ⟨1, 1, true⟩, ⟨0xFFFF, 1, 1, true⟩, ⟨1, 1, 14, 0, false, false⟩) ∧
    (after [.tick (.unsigned 15)] { Psg.atReset with mclk := 0xFFFFFFFFFFFFFFF0 }).map (·.1)
      = some { Psg.atReset with mclk := 0xFFFFFFFFFFFFFFFF } := by decide

/-- V-TCK-4: 256 tone/noise and 16 envelope updates. -/
theorem test_tick_4096 :
    (runCycles 4096 Psg.atReset).noise = ⟨0xFC72, 1, 1, false⟩ ∧
    (runCycles 4096 Psg.atReset).env = ⟨1, 1, 0, 0, true, false⟩ := by decide +kernel

/-- X8. -/
theorem test_tick_minus_one :
    after [.tick (.signed (-1))] Psg.atReset = some (Psg.atReset, .error (.eArg (-1))) ∧
    replyAfter [.tick (.signed 1)] = some (.cycles 1) := by decide

/-- V-RST-1. -/
theorem test_reset_operation :
    psgAfter [.writeR0 9, .writeR13 0x0E, .tick (.unsigned 17), .reset] = some Psg.atReset := by decide

/-- V-IMP-1, V-IMP-2, V-IMP-3: the first bad field is named. -/
theorem test_import_rejects :
    firstBadField ((exportMap Psg.atReset).map fun e => if e.1 = .noiseLfsr then (e.1, 131072) else e)
      = some .noiseLfsr ∧
    firstBadField ((exportMap Psg.atReset).map fun e => if e.1 = .tonePeriod .B then (e.1, 0) else e)
      = some (.tonePeriod .B) ∧
    firstBadField ((exportMap Psg.atReset).filter fun e => e.1 ≠ .envLevel) = some .envLevel := by decide

/-- V-IMP-4 with an extra field, and V-IMP-5. -/
theorem test_import_accepts :
    (psgAfter [.importState (((exportMap Psg.atReset).map fun e =>
      if e.1 = .tonePeriod .A then (e.1, 7) else e) ++ [(.other 99, -1)])]).map (·.toneA) = some ⟨7, 0, false⟩ ∧
    psgAfter [.importState (exportMap Psg.atReset)] = some Psg.atReset ∧
    replyAfter [.exportState] = some (.fields (exportMap Psg.atReset)) := by decide

/-- V-ERR-1 through requests: the operation after an error works as always. -/
theorem test_steps_after_error :
    Host.Core.run Sys2Proof.core 2 { State.reset with requests := [8, 16, 0, 0, 0, 5] }
      = .next { psg := writeCell 0 5 Psg.atReset, requests := [], reply := .done } := by rfl

/-- R103. -/
theorem test_pseudo :
    psgAfter [.wtp .B 0x234] = psgAfter [.writeR2 0x34, .writeR3 0x02] ∧
    psgAfter [.wep 511] = psgAfter [.writeR11 0xFF, .writeR12 1] ∧
    after [.tu 2] Psg.atReset = after [.tick (.unsigned 32)] Psg.atReset := by decide

theorem test_pseudo_eu : (psgAfter [.eu 1]).map (·.env) = some ⟨1, 1, 14, 0, false, false⟩ := by decide +kernel

/-- X4 and R98: each shape row starts from its extreme. -/
theorem test_shape_rows :
    (List.map (fun i => (psgAfter [i]).map (fun p => (p.env.shape.toNat, p.env.level.toNat)))
      [.shape0 0, .shape1 0, .shape2 0, .shape3 0, .shape4 0, .shape5 0, .shape6 0, .shape7 0])
      = [some (0, 15), some (1, 15), some (2, 15), some (3, 15), some (4, 0), some (5, 0), some (6, 0), some (7, 0)] ∧
    (List.map (fun i => (psgAfter [i]).map (fun p => (p.env.shape.toNat, p.env.level.toNat)))
      [.shape8 0, .shape9 0, .shapeA 0, .shapeB 0, .shapeC 0, .shapeD 0, .shapeE 0, .shapeF 0])
      = [some (8, 15), some (9, 15), some (10, 15), some (11, 15), some (12, 0), some (13, 0), some (14, 0),
          some (15, 0)] := by decide

/-! ### Witnesses: the hypotheses of each statement can be met -/

theorem witness_WriteRegStoresOneCell : (15 : Byte).toNat ≤ 15 := by decide

theorem witness_AddressErrorExactlyAbove15 :
    15 < (16 : Byte).toNat ∧ (15 : Byte).toNat ≤ 15 ∧
    (∃ t, exec (.writeReg 15 0) State.reset = .next t) ∧ (∃ t, exec (.readReg 15) State.reset = .next t) :=
  ⟨by decide, by decide, ⟨_, rfl⟩, ⟨_, rfl⟩⟩

theorem witness_ReadRegReturnsStoredByte : (15 : Byte).toNat < 16 := by decide

theorem witness_WriteThenReadReturnsTheByte :
    (15 : Byte).toNat < 16 ∧
    (∀ i ∈ [Instr.tick (.unsigned 16), .sample, .exportState, .getLfsrState], keepsRegisters i = true) := by decide

theorem witness_WritesToDifferentAddressesCommute : (0 : Byte) ≠ 1 := by decide

theorem witness_TwoPeriodsFlipTheToneTwice :
    (⟨3, 3, true⟩ : Tone).period ≠ 0 ∧
    (⟨3, 3, true⟩ : Tone).counter.toNat ≤ (⟨3, 3, true⟩ : Tone).period.toNat := by decide

theorem witness_ToneClosedFormAfterReset : 1 ≤ 4095 ∧ 4095 ≤ 4095 ∧ 1 ≤ 2 ^ 60 - 1 ∧ 16 * (2 ^ 60 - 1) < 2 ^ 64 := by
  decide

theorem witness_NoiseLatchFollowsTheNewBit :
    (idle (withNoise ⟨0x1FFFF, 1, 1, true⟩)).psg.noise.counter.toNat ≤ 1 ∧
    writesAll .noiseUpdate = false ∧ Instr.noiseUpdate ≠ .noiseReset ∧
    (idle (withNoise ⟨0x1FFFF, 1, 1, true⟩)).psg.noise.out
      = (idle (withNoise ⟨0x1FFFF, 1, 1, true⟩)).psg.noise.lfsr.getLsbD 0 ∧
    (∃ t, exec .noiseUpdate (idle (withNoise ⟨0x1FFFF, 1, 1, true⟩)) = .next t) :=
  ⟨by decide, by decide, by decide, by decide, ⟨_, rfl⟩⟩

theorem witness_LfsrLockUpIsClosed :
    writesAll .noiseUpdate = false ∧ Instr.noiseUpdate ≠ .noiseReset ∧
    (∃ t, exec .noiseUpdate (idle (withNoise ⟨0, 1, 0, false⟩)) = .next t ∧ t.psg.noise.lfsr = 0) ∧
    (∃ t, exec .noiseUpdate State.reset = .next t ∧ t.psg.noise.lfsr ≠ 0) :=
  ⟨by decide, by decide, ⟨_, rfl, by decide⟩, ⟨_, rfl, by decide⟩⟩

theorem witness_LfsrRunsThroughAllNonZeroValues : 0 < 1 ∧ 131070 < 131071 ∧ (1 : BitVec 17) ≠ 0 := by decide

/-- One state for each arm of ENV_STEP, at the ends of the level's range. -/
theorem witness_EnvelopeStepArms :
    (withEnv ⟨1, 1, 15, 0xD, true, true⟩).env.holding = true ∧
    ((withEnv ⟨1, 1, 14, 0xC, false, true⟩).env.holding = false ∧
      (withEnv ⟨1, 1, 14, 0xC, false, true⟩).env.attacking = true ∧
      (withEnv ⟨1, 1, 14, 0xC, false, true⟩).env.level.toNat < 15) ∧
    ((withEnv ⟨1, 1, 1, 0x8, false, false⟩).env.holding = false ∧
      (withEnv ⟨1, 1, 1, 0x8, false, false⟩).env.attacking = false ∧
      0 < (withEnv ⟨1, 1, 1, 0x8, false, false⟩).env.level.toNat) ∧
    (∀ shape ∈ [(0x4 : BitVec 4), 0xD, 0x5, 0xE, 0xC],
      (withEnv ⟨1, 1, 15, shape, false, true⟩).env.holding = false ∧
      (withEnv ⟨1, 1, 15, shape, false, true⟩).env.attacking = true ∧
      (withEnv ⟨1, 1, 15, shape, false, true⟩).env.level = 15) ∧
    ((0x4 : BitVec 4).getLsbD 3 = false ∧ (0x4 : BitVec 4).getLsbD 0 = false) ∧
    ((0xD : BitVec 4).getLsbD 0 = true ∧ (0x5 : BitVec 4).getLsbD 0 = true) ∧
    ((0xE : BitVec 4).getLsbD 3 = true ∧ (0xE : BitVec 4).getLsbD 0 = false ∧ (0xE : BitVec 4).getLsbD 1 = true) ∧
    ((0xC : BitVec 4).getLsbD 3 = true ∧ (0xC : BitVec 4).getLsbD 0 = false ∧ (0xC : BitVec 4).getLsbD 1 = false) := by
  decide

theorem witness_EnvelopeUpdateRule :
    (withEnv ⟨9, 1, 15, 0, false, false⟩).env.counter.toNat ≤ 1 ∧
    1 < (withEnv ⟨9, 2, 15, 0, false, false⟩).env.counter.toNat := by decide

theorem witness_ShapeCodesAreWritesToR13 :
    (Instr.shapeF, 0xF) ∈ [(Instr.shape0, 0x0), (Instr.shape1, 0x1), (Instr.shape2, 0x2), (Instr.shape3, 0x3),
      (Instr.shape4, 0x4), (Instr.shape5, 0x5), (Instr.shape6, 0x6), (Instr.shape7, 0x7),
      (Instr.shape8, 0x8), (Instr.shape9, 0x9), (Instr.shapeA, 0xA), (Instr.shapeB, 0xB),
      (Instr.shapeC, 0xC), (Instr.shapeD, 0xD), (Instr.shapeE, 0xE), (Instr.shapeF, 0xF)] := by simp

theorem witness_HoldingEndsOnlyByShapeWrite :
    (withEnv ⟨1, 1, 15, 0xD, true, true⟩).env.holding = true ∧ setsShape .envUpdate = false ∧
    writesAll .envUpdate = false ∧ Instr.envUpdate ≠ .envReset ∧
    (∃ t, exec .envUpdate (idle (withEnv ⟨1, 1, 15, 0xD, true, true⟩)) = .next t) :=
  ⟨by decide, by decide, by decide, by decide, ⟨_, rfl⟩⟩

theorem witness_FirstShapeStepWaitsForTheRunningCount :
    3 ≤ max 1 (idle (withEnv ⟨5, 3, 14, 0, false, false⟩)).psg.env.counter.toNat ∧
    1 ≤ max 1 State.reset.psg.env.counter.toNat := by decide

theorem witness_SampleLiesBelowTheLargestEntry :
    (∀ l : BitVec 4, (0 : Rat) ≤ (l.toNat : Rat)) ∧ (∀ l : BitVec 4, (l.toNat : Rat) ≤ ((15 : BitVec 4).toNat : Rat)) :=
  ⟨fun l => Nat.cast_nonneg _, fun l => Nat.cast_le.mpr (by have := l.isLt; simp; omega)⟩

theorem witness_MixerExamples :
    ((mixState 0xF8 0x0F 0 0 true false false true 0).cell 7 = 0xF8 ∧
      (mixState 0xF8 0x0F 0 0 true false false true 0).cell 8 = 0x0F ∧
      (mixState 0xF8 0x0F 0 0 true false false true 0).toneA.out = true ∧
      (mixState 0xF8 0x0F 0 0 true false false true 0).toneB.out = false ∧
      (mixState 0xF8 0x0F 0 0 true false false true 0).toneC.out = false) ∧
    ((mixState 0xFE 0x0F 0 0 true true true true 0).cell 7 = 0xFE ∧
      (mixState 0xFE 0x0F 0 0 true true true true 0).cell 8 = 0x0F ∧
      (mixState 0xFE 0x0F 0 0 true true true true 0).toneA.out = true) ∧
    (((mixState 0x24 0 0 0 true true true true 0).cell 7).testBit Channel.C.num = true ∧
      ((mixState 0x24 0 0 0 true true true true 0).cell 7).testBit (Channel.C.num + 3) = true) := by decide

theorem witness_SignedTickRejectsNegativeCounts : (-1 : BitVec 64).toInt < 0 ∧ 0 ≤ (0 : BitVec 64).toInt := by decide

theorem witness_TickIsAdditive : (0xFFFFFFFFFFFFFFFF : BitVec 64).toNat + (0 : BitVec 64).toNat < 2 ^ 64 := by decide

theorem witness_ImportReplacesEveryElement : FieldMap.Importable (exportMap Psg.atReset) := by
  refine ⟨?_, ?_, ?_, ?_, ⟨_, rfl, by decide, by decide⟩, ⟨_, rfl, by decide, by decide⟩,
    ⟨_, rfl, by decide, by decide⟩, ⟨_, rfl, by decide, by decide⟩, ⟨_, rfl, by decide, by decide⟩,
    ⟨_, rfl, by decide, by decide⟩, ⟨_, rfl, by decide, by decide⟩, ⟨_, rfl, by decide, by decide⟩,
    ⟨_, rfl, by decide, by decide⟩, ⟨_, rfl, by decide, by decide⟩, ⟨_, rfl, by decide, by decide⟩⟩
  · exact fun a => ⟨0, by revert a; decide, by decide, by decide⟩
  all_goals (intro c; cases c <;> exact ⟨_, rfl, by decide, by decide⟩)

theorem witness_ImportRejectsTheFirstBadField : ¬ FieldMap.Importable [(.reg 0, 256)] := by
  intro h
  obtain ⟨v, hv, -, hle⟩ := h.1 0
  have : v = 256 := by simpa [fieldOf] using hv.symm
  omega

theorem witness_ExportThenImportRestoresTheState : State.reset.psg.PeriodsPositive := by
  refine ⟨?_, ?_, ?_, ?_, ?_⟩ <;> decide

theorem witness_ErrorsChangeNothing :
    (∃ t, exec (.writeReg 16 0) State.reset = .next t ∧ t.reply = .error (.eAddr 16)) ∧
    (∃ t, exec (.readReg 255) State.reset = .next t ∧ t.reply = .error (.eAddr 255)) ∧
    (∃ t, exec (.tick (.signed (-1))) State.reset = .next t ∧ t.reply = .error (.eArg (-1))) ∧
    (∃ t, exec (.importState []) State.reset = .next t ∧ t.reply = .error (.eImport (.reg 0))) :=
  ⟨⟨_, rfl, rfl⟩, ⟨_, rfl, rfl⟩, ⟨_, rfl, rfl⟩, ⟨_, rfl, rfl⟩⟩

theorem witness_TheseOperationsCannotFail :
    cannotFail .sample = true ∧ cannotFail (.tick (.unsigned 0xFFFFFFFFFFFFFFFF)) = true := by decide

theorem witness_ResultDependsOnHardwareStateOnly :
    State.reset.psg = { State.reset with reply := .error (.eAddr 16), requests := [3, 0] }.psg := rfl

theorem witness_WhoMutatesWhat :
    (∃ t, exec .sample State.reset = .next t ∧ onlyReads .sample = true) ∧
    (∃ t, exec (.tick (.unsigned 16)) State.reset = .next t ∧ runsCycles (.tick (.unsigned 16)) = true) ∧
    (∃ t, exec .envStep State.reset = .next t ∧ isWrite .envStep = false ∧ writesAll .envStep = false) :=
  ⟨⟨_, rfl, by decide⟩, ⟨_, rfl, by decide⟩, ⟨_, rfl, by decide, by decide⟩⟩

theorem witness_OnlyMasterCyclesMoveTheClock :
    runsCycles (.writeR0 1) = false ∧ writesAll (.writeR0 1) = false ∧
    (∃ t, exec (.writeR0 1) State.reset = .next t) := ⟨by decide, by decide, ⟨_, rfl⟩⟩

theorem witness_StepKeepsPeriodsPositive :
    { State.reset with requests := [0, 0, 0] }.psg.PeriodsPositive ∧
    (∃ t, step { State.reset with requests := [0, 0, 0] } = .next t ∧ t.reply = .done) :=
  ⟨witness_ExportThenImportRestoresTheState, ⟨_, rfl, rfl⟩⟩

theorem witness_HostOperationsKeepConsistency :
    isInternal (.writeR0 0) = false ∧ (∀ m, Instr.writeR0 0 ≠ .importState m) ∧ State.reset.psg.Consistent ∧
    (∃ t, exec (.writeR0 0) State.reset = .next t) := by
  refine ⟨by decide, ?_, ⟨?_, by decide, by decide, by decide, by decide⟩, ⟨_, rfl⟩⟩
  · intro m h
    cases h
  · intro c; cases c <;> decide

theorem witness_StepRunsTheDecodedRequest :
    decode { State.reset with requests := [3, 0, 9] }.requests = .ok (.sample, [9]) ∧
    ({ State.reset with requests := [9] }.requests ≠ [] ∧
      decode { State.reset with requests := [9] }.requests = .error (.unknownFormat 9)) ∧
    State.reset.requests = [] := by decide

theorem witness_PlacedTableWordRunsNext : decodeTableWord 16 0x073E = some (.writeR7 0x3E) := by decide

theorem witness_EveryWrWordIsAWrite : 65535 < 65536 := by decide

theorem witness_DecodeOfEncodeIsTheOperation : (Instr.importState [(.other 255, -(2 ^ 71))]).WellFormed := by decide

theorem witness_DecodedOperationsAreWellFormed : decode [3, 0, 9] = .ok (.sample, [9]) := by decide

end Sys2Proof.Tests
end

