-- ==== Sys2Proof/Proofs/Effects.lean ====
section
/-! What an operation can do to the hardware, said once: every invariant of the hardware is a case analysis of
`Effect`, with no look into `exec`. -/

namespace Sys2Proof.Machine

/-- The ways an operation moves the hardware from the first state to the second. -/
inductive Effect : Instr → Psg → Psg → Prop
  /-- a read, or an operation that reported an error -/
  | unchanged {i : Instr} {p : Psg} : Effect i p p
  /-- a write to a cell other than R[13] -/
  | store {i : Instr} {p : Psg} {a : Fin 16} {v : Byte} (hi : isWrite i = true) (ha : a ≠ 13) :
      Effect i p (writeCell a v p)
  /-- a write to R[13] -/
  | storeShape {i : Instr} {p : Psg} {v : Byte} (hi : isWrite i = true) (hs : setsShape i = true) :
      Effect i p (writeCell 13 v p)
  /-- the two writes of WTP and WEP (R103) -/
  | storePair {i : Instr} {p : Psg} {a b : Fin 16} {v w : Byte} (hi : isWrite i = true)
      (ha : a ≠ 13) (hb : b ≠ 13) : Effect i p (writeCell b w (writeCell a v p))
  | cycles {i : Instr} {p : Psg} {n : Nat} (hi : runsCycles i = true) : Effect i p (runCycles n p)
  | toneSetPeriod {c : Channel} {p : Psg} : Effect (.toneSetPeriod c) p (setTonePeriod c p)
  | toneUpdate {c : Channel} {p : Psg} : Effect (.toneUpdate c) p (updateTone c p)
  | toneReset {c : Channel} {p : Psg} : Effect (.toneReset c) p (resetTone c p)
  | noiseSetPeriod {p : Psg} : Effect .noiseSetPeriod p (setNoisePeriod p)
  | noiseUpdate {p : Psg} : Effect .noiseUpdate p (updateNoise p)
  | noiseReset {p : Psg} : Effect .noiseReset p (resetNoise p)
  | envSetPeriod {p : Psg} : Effect .envSetPeriod p (setEnvPeriod p)
  | envSetShape {p : Psg} : Effect .envSetShape p (setEnvShape p)
  | envUpdate {p : Psg} : Effect .envUpdate p (updateEnv p)
  | envStep {p : Psg} : Effect .envStep p (stepEnv p)
  | envReset {p : Psg} : Effect .envReset p (resetEnv p)
  | reset {p : Psg} : Effect .reset p (resetPsg p)
  | importState {m : FieldMap} {p : Psg} (hm : firstBadField m = none) : Effect (.importState m) p (importPsg m)

theorem Effect.of_complete {i : Instr} {s t : State} {p : Psg} {r : Reply}
    (h : s.complete p r = .next t) (e : Effect i s.psg p) : Effect i s.psg t.psg := by
  cases h
  exact e

theorem Effect.of_answer {i : Instr} {s t : State} {r : Reply} (h : s.answer r = .next t) :
    Effect i s.psg t.psg :=
  .of_complete h .unchanged

theorem execWriteReg_effect {a v : Byte} {s t : State} (h : execWriteReg a v s = .next t) :
    Effect (.writeReg a v) s.psg t.psg := by
  by_cases ha : a.toNat < 16
  · rw [execWriteReg, cellOf_some ha] at h
    by_cases h13 : a = 13
    · subst h13
      exact .of_complete h (.storeShape rfl rfl)
    · exact .of_complete h (.store rfl fun e => h13 (BitVec.eq_of_toNat_eq (Fin.mk.inj e)))
  · rw [execWriteReg, cellOf_none ha] at h
    exact .of_answer h

theorem execReadReg_effect {a : Byte} {s t : State} (h : execReadReg a s = .next t) :
    Effect (.readReg a) s.psg t.psg := by
  unfold execReadReg at h
  split at h <;> exact .of_answer h

theorem execTick_effect {n : CycleCount} {s t : State} (h : execTick n s = .next t) :
    Effect (.tick n) s.psg t.psg := by
  cases n with
  | unsigned n => exact .of_complete h (.cycles rfl)
  | signed n =>
    simp only [execTick] at h
    split at h
    · exact .of_answer h
    · exact .of_complete h (.cycles rfl)

theorem execImportState_effect {m : FieldMap} {s t : State} (h : execImportState m s = .next t) :
    Effect (.importState m) s.psg t.psg := by
  unfold execImportState at h
  split at h
  · exact .of_answer h
  · next hm => exact .of_complete h (.importState hm)

theorem coarseReg_ne_thirteen (c : Channel) : coarseReg c ≠ 13 := by cases c <;> decide

theorem fineReg_ne_thirteen (c : Channel) : fineReg c ≠ 13 := by cases c <;> decide

/-- Every operation that gives a next state moves the hardware in one of the ways of `Effect`. -/
theorem exec_effect {i : Instr} {s t : State} (h : exec i s = .next t) : Effect i s.psg t.psg :=
  match i, h with
  | .writeR0 _, h | .writeR1 _, h | .writeR2 _, h | .writeR3 _, h | .writeR4 _, h | .writeR5 _, h
  | .writeR6 _, h | .writeR7 _, h | .writeR8 _, h | .writeR9 _, h | .writeR10 _, h | .writeR11 _, h
  | .writeR12 _, h | .writeR14 _, h | .writeR15 _, h => .of_complete h (.store rfl (by decide))
  | .writeR13 _, h
  | .shape0 _, h | .shape1 _, h | .shape2 _, h | .shape3 _, h | .shape4 _, h | .shape5 _, h | .shape6 _, h
  | .shape7 _, h | .shape8 _, h | .shape9 _, h | .shapeA _, h | .shapeB _, h | .shapeC _, h | .shapeD _, h
  | .shapeE _, h | .shapeF _, h => .of_complete h (.storeShape rfl rfl)
  | .writeReg _ _, h => execWriteReg_effect h
  | .wtp c _, h => .of_complete h (.storePair rfl (fineReg_ne_thirteen c) (coarseReg_ne_thirteen c))
  | .wep _, h => .of_complete h (.storePair rfl (by decide) (by decide))
  | .readReg _, h => execReadReg_effect h
  | .sample, h | .exportState, h | .getLfsrState, h | .toneOut _, h | .noiseOut, h | .envLevel, h
  | .lfsrStep _, h | .volLookup _, h | .mixActive _, h | .mixLevel _, h | .mixChannel _, h
  | .mixSum, h => .of_answer h
  | .tick _, h => execTick_effect h
  | .tu _, h | .eu _, h => .of_complete h (.cycles rfl)
  | .prescaleCycle, h => .of_complete h (.cycles (n := 1) rfl)
  | .toneSetPeriod _, h => .of_complete h .toneSetPeriod
  | .toneUpdate _, h => .of_complete h .toneUpdate
  | .toneReset _, h => .of_complete h .toneReset
  | .noiseSetPeriod, h => .of_complete h .noiseSetPeriod
  | .noiseUpdate, h => .of_complete h .noiseUpdate
  | .noiseReset, h => .of_complete h .noiseReset
  | .envSetPeriod, h => .of_complete h .envSetPeriod
  | .envSetShape, h => .of_complete h .envSetShape
  | .envUpdate, h => .of_complete h .envUpdate
  | .envStep, h => .of_complete h .envStep
  | .envReset, h => .of_complete h .envReset
  | .reset, h => .of_complete h .reset
  | .importState _, h => execImportState_effect h

end Sys2Proof.Machine
end

