-- ==== Sys2Proof/Proofs/State.lean ====
section
/-! The reset state, and the noise latch against bit 0 of the LFSR. -/

namespace Sys2Proof.Machine

/-! ### Reset -/

@[simp] theorem Psg.atReset_tone (c : Channel) : Psg.atReset.tone c = Tone.atReset := by cases c <;> rfl

/-- R271 and R320: RESET gives the state of a new machine. -/
@[simp] theorem resetPsg_eq_atReset (p : Psg) : resetPsg p = Psg.atReset := rfl

theorem exec_reset (s : State) : exec .reset s = .next { s with psg := Psg.atReset, reply := .done } := rfl

/-- Settles O1: RESET and power-on both have the hardware `Psg.atReset`, whose elements are the values of R47 to
R50. -/
theorem resetGivesGeneratorValues : Obligations.ResetGivesGeneratorValues := by
  intro s
  refine ⟨_, exec_reset s, fun u hu => ?_⟩
  have hpsg : u.psg = Psg.atReset := by obtain rfl | rfl := hu <;> rfl
  rw [hpsg]
  refine ⟨fun c => ?_, rfl, rfl, rfl, rfl, rfl, rfl, rfl, rfl, rfl, rfl, rfl⟩
  rw [Psg.atReset_tone]
  exact ⟨rfl, rfl, rfl⟩

/-! ### Invariants of the noise generator -/

/-- A write moves at most the period of the noise generator. -/
theorem writeCell_noise (a : Fin 16) (v : Byte) (p : Psg) :
    (writeCell a v p).noise = { p.noise with period := (writeCell a v p).noise.period } := by
  obtain ⟨hlfsr, hcounter, hout⟩ := writeCell_noise_lfsr a v p
  simp only [← hlfsr, ← hcounter, ← hout]

section
variable {P : Noise → Prop} (hperiod : ∀ n q, P n → P { n with period := q })
  (hupdate : ∀ n, P n → P n.update)

include hperiod in
theorem writeCell_noise_invariant {p : Psg} (a : Fin 16) (v : Byte) (h : P p.noise) :
    P (writeCell a v p).noise := by
  rw [writeCell_noise]
  exact hperiod _ _ h

include hupdate in
theorem runCycles_noise_invariant (n : Nat) {p : Psg} (h : P p.noise) : P (runCycles n p).noise := by
  induction n generalizing p with
  | zero => exact h
  | succ n ih =>
    rw [runCycles_succ]
    apply ih
    rw [prescaleCycle_noise]
    split
    · exact hupdate _ h
    · exact h

include hperiod hupdate in
/-- What a change of the period and a noise update keep, every operation keeps, but for those that write the noise
generator outright. -/
theorem Effect.noise_invariant {i : Instr} {p q : Psg} (e : Effect i p q) (hi : writesAll i = false)
    (hr : i ≠ .noiseReset) (h : P p.noise) : P q.noise := by
  cases e with
  | unchanged => exact h
  | store | storeShape => exact writeCell_noise_invariant hperiod _ _ h
  | storePair => exact writeCell_noise_invariant hperiod _ _ (writeCell_noise_invariant hperiod _ _ h)
  | cycles => exact runCycles_noise_invariant hupdate _ h
  | noiseSetPeriod => exact hperiod _ _ h
  | noiseUpdate => exact hupdate _ h
  | noiseReset => exact absurd rfl hr
  | toneSetPeriod | toneUpdate | toneReset => exact (Psg.setTone_noise _ _ _).symm ▸ h
  | envSetPeriod | envSetShape | envUpdate | envStep | envReset => exact h
  | reset | importState => cases hi

end

/-! ### The latch -/

/-- The output latch agrees with bit 0 of the LFSR. -/
def Noise.Latched (n : Noise) : Prop := n.out = n.lfsr.getLsbD 0

theorem Noise.atReset_lfsr_bit0 : Noise.atReset.lfsr.getLsbD 0 = true := by decide

/-- R161: a firing update loads the latch, whatever it held. -/
theorem Noise.latched_update_of_fires {n : Noise} (h : n.counter.toNat ≤ 1) : n.update.Latched := by
  rw [Noise.update_fires h]
  rfl

theorem Noise.Latched.update {n : Noise} (h : n.Latched) : n.update.Latched := by
  by_cases hc : n.counter.toNat ≤ 1
  · exact latched_update_of_fires hc
  · rw [Noise.update_counts hc]
    exact h

/-- Settles O21: a firing update loads the latch, RESET clears it beside an LFSR of all ones, and the agreement is
an invariant of the noise generator. -/
theorem noiseLatchFollowsTheNewBit : Obligations.NoiseLatchFollowsTheNewBit := by
  refine ⟨fun s hc => ⟨_, rfl, Noise.latched_update_of_fires hc⟩,
    fun s => ⟨_, exec_reset s, rfl, Noise.atReset_lfsr_bit0⟩, fun i s t hi hr hs ht => ?_⟩
  exact (exec_effect ht).noise_invariant (P := Noise.Latched) (fun _ _ h => h) (fun _ h => h.update) hi hr hs

end Sys2Proof.Machine
end

