-- ==== Sys2Proof/Proofs/RegisterWrites.lean ====
section
/-! The writes that recompute a period: R110 with the spec's integer formulas. -/

namespace Sys2Proof.Machine

/-- R111, R113, R115: the period takes its high bits from the partner's stored byte. -/
theorem writeCell_fine_cell (c : Channel) (v : Byte) (p : Psg) :
    writeCell (fineReg c) v p = (p.setReg (fineReg c) v).setTone c
      { p.tone c with
        period := BitVec.ofNat 12 (max 1 (((p.cell (coarseReg c).val &&& 0xF) <<< 8) ||| v.toNat)) } := by
  rw [writeCell_fine, clamp1_tone, Psg.cell_eq]

/-- R112, R114, R116: the period takes its low bits from the partner's stored byte. -/
theorem writeCell_coarse_cell (c : Channel) (v : Byte) (p : Psg) :
    writeCell (coarseReg c) v p = (p.setReg (coarseReg c) v).setTone c
      { p.tone c with
        period := BitVec.ofNat 12 (max 1 (((v.toNat &&& 0xF) <<< 8) ||| p.cell (fineReg c).val)) } := by
  rw [writeCell_coarse, clamp1_tone, Psg.cell_eq]

/-- An operation that completes with the hardware `p`, where `p` is also written `q`. -/
theorem State.complete_of_eq {s : State} {p q : Psg} {r : Reply} (h : p = q) :
    s.complete p r = .next { s with psg := q, reply := r } := by
  rw [h, State.complete_eq]

/-- Settles O3: for each channel, the write to its fine and the write to its coarse register. -/
theorem writeTonePeriodRegisters : Obligations.WriteTonePeriodRegisters := fun s v =>
  ⟨State.complete_of_eq (writeCell_fine_cell .A v s.psg), State.complete_of_eq (writeCell_coarse_cell .A v s.psg),
   State.complete_of_eq (writeCell_fine_cell .B v s.psg), State.complete_of_eq (writeCell_coarse_cell .B v s.psg),
   State.complete_of_eq (writeCell_fine_cell .C v s.psg), State.complete_of_eq (writeCell_coarse_cell .C v s.psg)⟩

/-- Settles O4: the noise period is the clamped low five bits of the byte. -/
theorem writeNoisePeriodRegister : Obligations.WriteNoisePeriodRegister := by
  intro s v
  have h := writeCell_six v s.psg
  rw [clamp1_noise] at h
  exact State.complete_of_eq h

/-- Settles O6: the envelope period is recomputed from the byte and the partner's stored byte, eight bits of both. -/
theorem writeEnvelopePeriodRegisters : Obligations.WriteEnvelopePeriodRegisters := by
  intro s v
  have fine := writeCell_eleven v s.psg
  have coarse := writeCell_twelve v s.psg
  rw [clamp1_env, ← Psg.cell_eq] at fine coarse
  exact ⟨State.complete_of_eq fine, State.complete_of_eq coarse⟩

end Sys2Proof.Machine
end

