-- ==== Sys2Proof/Proofs/Tone.lean ====
section
/-! The tone generators' own operations, with the spec's integer formulas. -/

namespace Sys2Proof.Machine

/-! ### The period registers of a channel (R10) -/

theorem fineReg_val (c : Channel) : (fineReg c).val = 2 * c.num := by cases c <;> rfl

theorem coarseReg_val (c : Channel) : (coarseReg c).val = 2 * c.num + 1 := by cases c <;> rfl

/-- R93 with the clamp of R22, on the stored bytes of the channel's two registers. -/
theorem clamp1_tonePeriodField (p : Psg) (c : Channel) :
    clamp1 (tonePeriodField p c) =
      BitVec.ofNat 12 (max 1 (((p.cell (2 * c.num + 1) &&& 0xF) <<< 8) ||| p.cell (2 * c.num))) := by
  rw [tonePeriodField, clamp1_tone, ← Psg.cell_eq, ← Psg.cell_eq, fineReg_val, coarseReg_val]

/-- R140. -/
theorem setTonePeriod_cell (c : Channel) (p : Psg) :
    setTonePeriod c p = p.setTone c { p.tone c with
      period := BitVec.ofNat 12
        (max 1 (((p.cell (2 * c.num + 1) &&& 0xF) <<< 8) ||| p.cell (2 * c.num))) } := by
  rw [setTonePeriod, clamp1_tonePeriodField]

/-! ### The operations -/

/-- Settles O15: the period is the clamped integer of the two stored bytes; the read is an answer and the reset one
write to the generator. -/
theorem toneInternalOperations : Obligations.ToneInternalOperations := fun s c =>
  ⟨State.complete_of_eq (setTonePeriod_cell c s.psg), State.answer_eq s (.bit (s.psg.tone c).out),
   State.complete_eq s (resetTone c s.psg) .done⟩

end Sys2Proof.Machine
end

