-- ==== Sys2Proof/Proofs/Noise.lean ====
section
/-! The noise generator's own operations, and the shift register's step as a number and bit by bit. -/

namespace Sys2Proof.Machine

/-! ### The period (R94) -/

/-- R94 with the clamp of R27, on the stored byte of R[6]. -/
theorem clamp1_noisePeriodField (p : Psg) :
    clamp1 (noisePeriodField p) = BitVec.ofNat 5 (max 1 (p.cell 6 &&& 0x1F)) := by
  rw [noisePeriodField, clamp1_noise, ← Psg.cell_eq]
  rfl

/-- R160. -/
theorem setNoisePeriod_cell (p : Psg) :
    setNoisePeriod p =
      { p with noise := { p.noise with period := BitVec.ofNat 5 (max 1 (p.cell 6 &&& 0x1F)) } } := by
  rw [setNoisePeriod, clamp1_noisePeriodField]

/-! ### The shift register (R162) -/

/-- The new bit weighs 2^16: it is moved to the top of the register. -/
theorem newBit_toNat (b : Bool) : ((BitVec.ofBool b).setWidth 17 <<< 16).toNat = b.toNat <<< 16 := by
  cases b <;> rfl

/-- The new bit stands in bit 16 and nowhere else. -/
theorem newBit_getLsbD (b : Bool) (i : Nat) :
    ((BitVec.ofBool b).setWidth 17 <<< 16).getLsbD i = (decide (i = 16) && b) := by
  cases b with
  | false => simp
  | true =>
    have h : (BitVec.ofBool true).setWidth 17 <<< 16 = BitVec.twoPow 17 16 := rfl
    rw [h, BitVec.getLsbD_twoPow]
    simp [eq_comm]

theorem lfsrStep_toNat (x : BitVec 17) :
    (lfsrStep x).toNat =
      (x.toNat >>> 1) ||| ((x.toNat.testBit 0 ^^ x.toNat.testBit 3).toNat <<< 16) := by
  rw [lfsrStep, BitVec.toNat_or, BitVec.toNat_ushiftRight, newBit_toNat]
  rfl

theorem lfsrStep_getLsbD (x : BitVec 17) (i : Nat) :
    (lfsrStep x).getLsbD i = (x.getLsbD (i + 1) || (decide (i = 16) && (x.getLsbD 0 ^^ x.getLsbD 3))) := by
  rw [lfsrStep, BitVec.getLsbD_or, BitVec.getLsbD_ushiftRight, newBit_getLsbD, Nat.add_comm]

/-- Below the top every bit comes from its left neighbour. -/
theorem lfsrStep_getLsbD_of_lt (x : BitVec 17) {i : Nat} (hi : i < 16) :
    (lfsrStep x).getLsbD i = x.getLsbD (i + 1) := by
  simp [lfsrStep_getLsbD, hi.ne]

/-- The top bit has no left neighbour: it is the xor of the two taps. -/
theorem lfsrStep_getLsbD_sixteen (x : BitVec 17) :
    (lfsrStep x).getLsbD 16 = (x.getLsbD 0 ^^ x.getLsbD 3) := by
  rw [lfsrStep_getLsbD, BitVec.getLsbD_of_ge x 17 le_rfl]
  simp

/-! ### The operations -/

/-- Settles O19: the period is the clamped low five bits of the stored byte; the two reads are answers and the reset
one write to the generator. -/
theorem noiseInternalOperations : Obligations.NoiseInternalOperations := fun s =>
  ⟨State.complete_of_eq (setNoisePeriod_cell s.psg), State.answer_eq s (.bit s.psg.noise.out),
   State.answer_eq s (.lfsr s.psg.noise.lfsr), State.complete_eq s (resetNoise s.psg) .done⟩

/-- Settles O20: the value answered is `lfsrStep x`. -/
theorem lfsrStepShiftsInTheTaps : Obligations.LfsrStepShiftsInTheTaps := fun s x =>
  ⟨lfsrStep x, State.answer_eq s (.lfsr (lfsrStep x)), lfsrStep_toNat x,
   fun _ hi => lfsrStep_getLsbD_of_lt x hi, lfsrStep_getLsbD_sixteen x⟩

end Sys2Proof.Machine
end

