-- ==== Sys2Proof/Proofs/Envelope.lean ====
section
/-! The envelope generator's own operations, with the spec's integer formulas. -/

namespace Sys2Proof.Machine

/-! ### The period (R95) -/

/-- R95 with the clamp of R30, on the stored bytes of R[12] and R[11]. -/
theorem clamp1_envPeriodField (p : Psg) :
    clamp1 (envPeriodField p) = BitVec.ofNat 16 (max 1 ((p.cell 12 <<< 8) ||| p.cell 11)) := by
  rw [envPeriodField, clamp1_env, ← Psg.cell_eq, ← Psg.cell_eq]
  rfl

/-- R180. -/
theorem setEnvPeriod_cell (p : Psg) :
    setEnvPeriod p =
      { p with env := { p.env with period := BitVec.ofNat 16 (max 1 ((p.cell 12 <<< 8) ||| p.cell 11)) } } := by
  rw [setEnvPeriod, clamp1_envPeriodField]

/-! ### The operations -/

/-- Settles O24: the period is the clamped integer of the two stored bytes; the read is an answer and the reset one
write to the generator. -/
theorem envelopeInternalOperations : Obligations.EnvelopeInternalOperations := fun s =>
  ⟨State.complete_of_eq (setEnvPeriod_cell s.psg), State.answer_eq s (.level s.psg.env.level),
   State.complete_eq s (resetEnv s.psg) .done⟩

end Sys2Proof.Machine
end

