-- ==== Sys2Proof/Proofs/Mixer.lean ====
section
/-! The volume table's and the mixer's own operations, with the spec's integer formulas. -/

namespace Sys2Proof.Machine

/-! ### The mixer's bits and fields as the stored bytes hold them (R97) -/

theorem volReg_val (c : Channel) : (volReg c).val = 8 + c.num := by cases c <;> rfl

/-- A bit of a register is the bit of the stored integer. -/
theorem Psg.reg_getLsbD (p : Psg) (a : Fin 16) (i : Nat) : (p.reg a).getLsbD i = (p.cell a.val).testBit i := by
  rw [Psg.cell_eq, BitVec.testBit_toNat]

theorem toneDisabled_cell (p : Psg) (c : Channel) : toneDisabled p c = (p.cell 7).testBit c.num :=
  p.reg_getLsbD 7 c.num

theorem noiseDisabled_cell (p : Psg) (c : Channel) : noiseDisabled p c = (p.cell 7).testBit (c.num + 3) :=
  p.reg_getLsbD 7 (c.num + 3)

theorem envMode_cell (p : Psg) (c : Channel) : envMode p c = (p.cell (8 + c.num)).testBit 4 := by
  rw [envMode, Psg.reg_getLsbD, volReg_val]

theorem fixedLevel_cell (p : Psg) (c : Channel) :
    fixedLevel p c = BitVec.ofNat 4 (p.cell (8 + c.num) &&& 0xF) := by
  rw [fixedLevel, lowNibble_eq, ← Psg.cell_eq, volReg_val]

/-! ### The mixer's formulas -/

/-- R230. -/
theorem mixActive_eq_active (p : Psg) (c : Channel) : mixActive p c = p.active c := by
  rw [mixActive, toneDisabled_cell, noiseDisabled_cell, Psg.active]

/-- R231: the envelope's level or the fixed one, as the mode bit selects. -/
theorem mixLevel_eq_dacLevel (p : Psg) (c : Channel) : mixLevel p c = BitVec.ofNat 4 (p.dacLevel c) := by
  rw [mixLevel, envMode_cell, fixedLevel_cell, Psg.dacLevel, apply_ite (BitVec.ofNat 4), BitVec.ofNat_toNat,
    BitVec.setWidth_eq]

/-- R232. -/
theorem mixChannel_eq_pcm (p : Psg) (c : Channel) : mixChannel Config.vol p c = p.pcm c := by
  rw [mixChannel, mixActive_eq_active, mixLevel_eq_dacLevel, Psg.pcm]

/-! ### The operations -/

/-- An operation that only reads and answers `q`, where `q` is also written `r`. -/
theorem State.answer_of_eq {s : State} {q r : Reply} (h : q = r) : s.answer q = .next { s with reply := r } := by
  rw [h, State.answer_eq]

/-- Settles O32: each operation is an answer, and the value it answers is the spec's integer formula. -/
theorem volumeAndMixerOperations : Obligations.VolumeAndMixerOperations := fun s c level =>
  ⟨State.answer_eq s (.number (Config.vol level)),
   State.answer_of_eq (congrArg Reply.bit (mixActive_eq_active s.psg c)),
   State.answer_of_eq (congrArg Reply.level (mixLevel_eq_dacLevel s.psg c)),
   State.answer_of_eq (congrArg Reply.number (mixChannel_eq_pcm s.psg c))⟩

end Sys2Proof.Machine
end

