-- ==== Sys2Proof/Proofs/MixerExamples.lean ====
section
/-! The mixer's triple, and the channels that are silent or sound at a fixed level. -/

namespace Sys2Proof.Machine

/-! ### The triple and its mean (R233, R270) -/

theorem mixSum_eq_mean_pcm (p : Psg) : mixSum Config.vol p = (p.pcm .A + p.pcm .B + p.pcm .C) / 3 := by
  simp only [mixSum, mixChannel_eq_pcm]

theorem exec_mixChannel (s : State) (c : Channel) :
    exec (.mixChannel c) s = .next { s with reply := .number (s.psg.pcm c) } :=
  State.answer_of_eq (congrArg Reply.number (mixChannel_eq_pcm s.psg c))

theorem exec_sample (s : State) :
    exec .sample s = .next { s with
      reply := .sample (s.psg.pcm .A) (s.psg.pcm .B) (s.psg.pcm .C)
        ((s.psg.pcm .A + s.psg.pcm .B + s.psg.pcm .C) / 3) } :=
  State.answer_of_eq (by simp only [mixChannel_eq_pcm, mixSum_eq_mean_pcm])

/-! ### One channel (R230 to R232) -/

section
variable {p : Psg} {c : Channel}

/-- With the noise disabled only the tone gates the channel. -/
theorem Psg.active_of_noise_disabled (h : (p.cell 7).testBit (c.num + 3) = true) :
    p.active c = (!(p.cell 7).testBit c.num && (p.tone c).out) := by
  simp [Psg.active, h]

theorem Psg.active_of_both_disabled (ht : (p.cell 7).testBit c.num = true)
    (hn : (p.cell 7).testBit (c.num + 3) = true) : p.active c = false := by
  simp [Psg.active_of_noise_disabled hn, ht]

theorem Psg.pcm_of_inactive (h : p.active c = false) : p.pcm c = 0 := by
  simp [Psg.pcm, h]

/-- An active channel with the volume byte 0x0F, whose mode bit is clear, sounds at the top of the table. -/
theorem Psg.pcm_of_active_of_full (h : p.active c = true) (hv : p.cell (8 + c.num) = 0x0F) :
    p.pcm c = Config.vol 15 := by
  have hlevel : p.dacLevel c = 15 := by rw [Psg.dacLevel, hv]; rfl
  rw [Psg.pcm, if_pos h, hlevel]
  rfl

end

/-! ### The examples -/

/-- Channel A alone, at the top of the table: its mean with two silent channels is a third of it (R233, D14). -/
theorem exec_sample_of_only_A_full {s : State} (hv : s.psg.cell 8 = 0x0F) (hA : s.psg.active .A = true)
    (hB : s.psg.active .B = false) (hC : s.psg.active .C = false) :
    exec .sample s = .next { s with reply := .sample (Config.vol 15) 0 0 (Config.vol 15 / 3) } := by
  rw [exec_sample, Psg.pcm_of_active_of_full hA hv, Psg.pcm_of_inactive hB, Psg.pcm_of_inactive hC, add_zero, add_zero]

/-- R237: 0xF8 and 0xFE both disable the noise on every channel. -/
theorem Psg.active_of_example_byte {p : Psg} (h : p.cell 7 = 0xF8 ∨ p.cell 7 = 0xFE) (c : Channel) :
    p.active c = (!(p.cell 7).testBit c.num && (p.tone c).out) := by
  apply Psg.active_of_noise_disabled
  obtain h | h := h <;> rw [h] <;> cases c <;> rfl

/-- R237: 0xF8 and 0xFE both enable tone A. -/
theorem Psg.active_A_of_example_byte {p : Psg} (h : p.cell 7 = 0xF8 ∨ p.cell 7 = 0xFE)
    (hA : p.toneA.out = true) : p.active .A = true := by
  have hout : (p.tone .A).out = true := hA
  rw [Psg.active_of_example_byte h, hout]
  obtain h | h := h <;> rw [h] <;> rfl

/-- Settles O35: under 0xF8 the tones at 0 silence B and C, under 0xFE their disable bits do; only A sounds, at
level 15. -/
theorem mixerExamples : Obligations.MixerExamples := by
  intro s
  refine ⟨fun h7 h8 hA hB hC => ?_, fun h7 h8 hA => ?_, fun c ht hn => ?_⟩
  · have hactive := Psg.active_of_example_byte (.inl h7)
    exact exec_sample_of_only_A_full h8 (Psg.active_A_of_example_byte (.inl h7) hA)
      (by simp [hactive, Psg.tone, hB]) (by simp [hactive, Psg.tone, hC])
  · have hactive := Psg.active_of_example_byte (.inr h7)
    exact exec_sample_of_only_A_full h8 (Psg.active_A_of_example_byte (.inr h7) hA)
      (by rw [hactive, h7]; rfl) (by rw [hactive, h7]; rfl)
  · rw [exec_mixChannel, Psg.pcm_of_inactive (Psg.active_of_both_disabled ht hn)]

end Sys2Proof.Machine
end

