-- ==== Sys2Proof/Proofs/Prescale.lean ====
section
/-! TICK as the iterate of the master cycle (spec/46_prescale_tick.md). -/

namespace Sys2Proof.Machine

/-- R250: the model's recursion on the count is the iterate of the master cycle. -/
theorem runCycles_eq_iterate (n : Nat) (p : Psg) : runCycles n p = prescaleCycle^[n] p := by
  induction n generalizing p with
  | zero => rfl
  | succ n ih => rw [runCycles_succ, ih, Function.iterate_succ_apply]

/-- Settles O37: TICK completes with `runCycles`, which is the iterate by induction on the number of master cycles. -/
theorem tickRepeatsThePrescaleCycle : Obligations.TickRepeatsThePrescaleCycle :=
  fun s n => State.complete_of_eq (runCycles_eq_iterate n.toNat s.psg)

end Sys2Proof.Machine
end

