-- ==== Sys2Proof/Proofs/Exceptions.lean ====
section
/-! The errors an operation can report, and the operations that report none (spec/60_exceptions.md). -/

namespace Sys2Proof.Machine

/-- R290: the operation completes, and what it hands back is no error. -/
def Succeeds (o : Host.Outcome State Fault Refusal) : Prop := ∃ t, o = .next t ∧ ∀ e, t.reply ≠ .error e

theorem State.complete_succeeds (s : State) (p : Psg) {r : Reply} (hr : ∀ e, r ≠ .error e) :
    Succeeds (s.complete p r) := ⟨_, s.complete_eq p r, hr⟩

theorem State.answer_succeeds (s : State) {r : Reply} (hr : ∀ e, r ≠ .error e) : Succeeds (s.answer r) :=
  s.complete_succeeds s.psg hr

theorem Succeeds.reply_ne_error {o : Host.Outcome State Fault Refusal} {t : State} (h : Succeeds o)
    (ht : o = .next t) (e : HwError) : t.reply ≠ .error e := by
  obtain ⟨u, hu, hreply⟩ := h
  obtain rfl : u = t := Host.Outcome.next.inj (hu.symm.trans ht)
  exact hreply e

/-! ### The address check (R291) -/

section
variable {a : Byte} (s : State) (v : Byte)

theorem execWriteReg_of_illegal (h : ¬ a.toNat < 16) : execWriteReg a v s = s.raise (.eAddr a) := by
  rw [execWriteReg, cellOf_none h]

theorem execReadReg_of_illegal (h : ¬ a.toNat < 16) : execReadReg a s = s.raise (.eAddr a) := by
  rw [execReadReg, cellOf_none h]

theorem execWriteReg_succeeds (h : a.toNat < 16) : Succeeds (execWriteReg a v s) := by
  rw [execWriteReg, cellOf_some h]
  exact s.complete_succeeds _ nofun

theorem execReadReg_succeeds (h : a.toNat < 16) : Succeeds (execReadReg a s) := by
  rw [execReadReg, cellOf_some h]
  exact s.answer_succeeds nofun

end

/-- Settles O11: outside the register file both operations raise, inside it both succeed. -/
theorem addressErrorExactlyAbove15 : Obligations.AddressErrorExactlyAbove15 := by
  intro s a v
  refine ⟨fun h => ?_, fun h t e ht => ?_⟩
  · have illegal : ¬ a.toNat < 16 := by omega
    exact ⟨execWriteReg_of_illegal s v illegal, execReadReg_of_illegal s illegal⟩
  · have legal : a.toNat < 16 := by omega
    obtain hwrite | hread := ht
    · exact (execWriteReg_succeeds s v legal).reply_ne_error hwrite e
    · exact (execReadReg_succeeds s legal).reply_ne_error hread e

/-! ### The operations that cannot fail (R294) -/

/-- Settles O47: each operation of R294's list writes the hardware and completes, or reads it and answers; no branch
of their meanings raises. -/
theorem theseOperationsCannotFail : Obligations.TheseOperationsCannotFail := fun i s hi =>
  match i, hi with
  | .reset, _ | .tick (.unsigned _), _ | .prescaleCycle, _
  | .toneSetPeriod _, _ | .toneUpdate _, _ | .toneReset _, _
  | .noiseSetPeriod, _ | .noiseUpdate, _ | .noiseReset, _
  | .envSetPeriod, _ | .envSetShape, _ | .envUpdate, _ | .envStep, _ | .envReset, _ => s.complete_succeeds _ nofun
  | .sample, _ | .exportState, _ | .getLfsrState, _
  | .toneOut _, _ | .noiseOut, _ | .lfsrStep _, _ | .envLevel, _
  | .volLookup _, _ | .mixActive _, _ | .mixLevel _, _ | .mixChannel _, _ | .mixSum, _ => s.answer_succeeds nofun

end Sys2Proof.Machine
end

