-- ==== Sys2Proof/Proofs/Codec.lean ====
section
/-! The decoder undoes the encoder (spec/30_encoding.md section 1; assumption log entry 3): the field map first, the
only operand whose form is checked, then each format. -/

namespace Sys2Proof

/-! ### The canonical form of a field map -/

/-- The codes of a map's fields, in the map's order. -/
def FieldMap.codes (m : FieldMap) : List Nat := m.map fun e => e.1.code

theorem FieldMap.rising_iff (m : FieldMap) : m.rising = true ↔ m.codes.IsChain (· < ·) := by
  induction m with
  | nil => simp [rising, codes]
  | cons e m ih =>
    cases m with
    | nil => simp [rising, codes]
    | cons e' m =>
      simp only [rising, Bool.and_eq_true, decide_eq_true_eq, ih]
      exact List.isChain_cons_cons.symm

theorem FieldMap.wf_iff (m : FieldMap) :
    m.wf = true ↔ (∀ e ∈ m, e.1.wf = true ∧ fieldValueFits e.2 = true) ∧ m.codes.IsChain (· < ·) := by
  simp only [wf, Bool.and_eq_true, List.all_eq_true, rising_iff]

/-- A canonical map has at most one entry for each of the 256 codes, so two bytes hold its length. -/
theorem FieldMap.length_le_of_wf {m : FieldMap} (h : m.wf = true) : m.length ≤ 256 := by
  have hnodup : m.codes.Nodup :=
    (List.isChain_iff_pairwise.mp (m.wf_iff.mp h).2).imp fun hlt => Nat.ne_of_lt hlt
  have hsubset : m.codes ⊆ List.range 256 := by
    intro code hcode
    obtain ⟨e, -, rfl⟩ := List.mem_map.mp hcode
    exact List.mem_range.mpr e.1.code_lt
  simpa [codes] using (List.subperm_of_subset hnodup hsubset).length_le

/-! ### The operands that are no plain bits -/

/-- Nine bytes of two's complement hold every value that fits. -/
theorem toInt_ofNat_nine_bytes {v : Int} (h : fieldValueFits v = true) :
    (BitVec.ofNat 72 ((BitVec.ofInt 72 v).toNat % 256 ^ 9)).toInt = v := by
  obtain ⟨hlo, hhi⟩ := of_decide_eq_true h
  have hbytes : (256 : Nat) ^ 9 = 2 ^ 72 := by norm_num
  rw [hbytes, Nat.mod_eq_of_lt (BitVec.isLt _), BitVec.ofNat_toNat, BitVec.setWidth_eq, BitVec.toInt_ofInt]
  exact Int.bmod_eq_of_le (by norm_num; omega) (by norm_num; omega)

theorem takeEntry_putEntry {e : Field × Int} (hf : e.1.wf = true) (hv : fieldValueFits e.2 = true)
    (rest : List Byte) : takeEntry (putEntry e ++ rest) = .ok (e, rest) := by
  simp only [putEntry, List.cons_append, takeEntry, takeLE_putLE, fieldOfCode_code _ hf, toInt_ofNat_nine_bytes hv]

theorem takeEntries_putEntries {m : FieldMap} (h : ∀ e ∈ m, e.1.wf = true ∧ fieldValueFits e.2 = true)
    (rest : List Byte) : takeEntries m.length (putEntries m ++ rest) = .ok (m, rest) := by
  induction m with
  | nil => rfl
  | cons e m ih =>
    obtain ⟨hf, hv⟩ := h e List.mem_cons_self
    have hm := ih fun e' he' => h e' (List.mem_cons_of_mem _ he')
    simp only [putEntries, List.append_assoc, List.length_cons, takeEntries, takeEntry_putEntry hf hv, hm]

theorem takeFieldMap_putFieldMap {m : FieldMap} (h : m.wf = true) (rest : List Byte) :
    takeFieldMap (putFieldMap m ++ rest) = .ok (m, rest) := by
  have hlen : m.length % 256 ^ 2 = m.length :=
    Nat.mod_eq_of_lt (lt_of_le_of_lt (FieldMap.length_le_of_wf h) (by norm_num))
  simp only [putFieldMap, List.append_assoc, takeFieldMap, takeLE_putLE, hlen,
    takeEntries_putEntries (m.wf_iff.mp h).1, h, if_true]

/-! ### The requests -/

/-- A request that goes on with a channel. -/
theorem decode_channel {bs rest : List Byte} {f : Channel → Instr} (c : Channel)
    (h : decode bs = thenInstr (takeChannel (putChannel c :: rest)) f) : decode bs = .ok (f c, rest) := by
  rw [h, takeChannel_putChannel, thenInstr]

/-- A request that goes on with a number of `w` bits in `n` bytes. -/
theorem decode_bits {w n : Nat} {bs rest : List Byte} (f : BitVec w → Instr) (v : BitVec w) (hw : w ≤ 8 * n)
    (h : decode bs = thenInstr (takeBits w n (putBits n v ++ rest)) f) : decode bs = .ok (f v, rest) := by
  rw [h, takeBits_putBits hw, thenInstr]

/-- A request that goes on with a shape byte: the ignored nibble above the code (R98). -/
theorem decode_shape {bs rest : List Byte} {op : BitVec 4 → Instr} {code : BitVec 4} (x : BitVec 4)
    (hop : ∀ x, instrOfShape (x ++ code) = op x) (h : decode bs = .ok (instrOfShape (x ++ code), rest)) :
    decode bs = .ok (op x, rest) := by
  rw [h, hop]

theorem decode_wtp (c : Channel) (p : BitVec 12) (rest : List Byte) :
    decode (encode (.wtp c p) ++ rest) = .ok (.wtp c p, rest) := by
  have h : decode (encode (.wtp c p) ++ rest) = decodeWtp (putChannel c :: (putBits 2 p ++ rest)) := rfl
  rw [h, decodeWtp, takeChannel_putChannel]
  simp only [takeBits_putBits (show 12 ≤ 8 * 2 by decide), thenInstr]

theorem decode_importState {m : FieldMap} (hm : m.wf = true) (rest : List Byte) :
    decode (encode (.importState m) ++ rest) = .ok (.importState m, rest) := by
  have h : decode (encode (.importState m) ++ rest) = decodeBl (putFieldMap m ++ rest) := rfl
  rw [h, decodeBl, takeFieldMap_putFieldMap hm, thenInstr]

theorem decode_encode {i : Instr} (h : i.WellFormed) (rest : List Byte) : decode (encode i ++ rest) = .ok (i, rest) :=
  match i, h with
  | .writeR0 _, _ | .writeR1 _, _ | .writeR2 _, _ | .writeR3 _, _ | .writeR4 _, _ | .writeR5 _, _ | .writeR6 _, _
  | .writeR7 _, _ | .writeR8 _, _ | .writeR9 _, _ | .writeR10 _, _ | .writeR11 _, _ | .writeR12 _, _
  | .writeR13 _, _ | .writeR14 _, _ | .writeR15 _, _ | .writeReg _ _, _ | .readReg _, _
  | .sample, _ | .reset, _ | .exportState, _ | .getLfsrState, _
  | .noiseSetPeriod, _ | .noiseUpdate, _ | .noiseOut, _ | .noiseReset, _
  | .envSetPeriod, _ | .envSetShape, _ | .envUpdate, _ | .envStep, _ | .envLevel, _ | .envReset, _
  | .mixSum, _ | .prescaleCycle, _ => rfl
  | .toneSetPeriod c, _ | .toneUpdate c, _ | .toneOut c, _ | .toneReset c, _
  | .mixActive c, _ | .mixLevel c, _ | .mixChannel c, _ => decode_channel c rfl
  | .tick (.unsigned v), _ => decode_bits (n := 8) (fun n => .tick (.unsigned n)) v (by decide) rfl
  | .tick (.signed v), _ => decode_bits (n := 8) (fun n => .tick (.signed n)) v (by decide) rfl
  | .lfsrStep v, _ => decode_bits (n := 3) .lfsrStep v (by decide) rfl
  | .volLookup v, _ => decode_bits (n := 1) .volLookup v (by decide) rfl
  | .wep v, _ => decode_bits (n := 2) .wep v (by decide) rfl
  | .tu v, _ => decode_bits (n := 8) .tu v (by decide) rfl
  | .eu v, _ => decode_bits (n := 8) .eu v (by decide) rfl
  | .wtp c p, _ => decode_wtp c p rest
  | .importState _, hm => decode_importState hm rest
  | .shape0 x, _ | .shape1 x, _ | .shape2 x, _ | .shape3 x, _ | .shape4 x, _ | .shape5 x, _ | .shape6 x, _
  | .shape7 x, _ | .shape8 x, _ | .shape9 x, _ | .shapeA x, _ | .shapeB x, _ | .shapeC x, _ | .shapeD x, _
  | .shapeE x, _ | .shapeF x, _ => decode_shape x (by decide) rfl

/-- Settles O58: format by format, each operand is read back as it was written. -/
theorem decodeOfEncodeIsTheOperation : Obligations.DecodeOfEncodeIsTheOperation :=
  fun _ rest h => decode_encode h rest

end Sys2Proof
end

