-- ==== Sys2Proof/Proofs/Requests.lean ====
section
/-! The machine's fetch, the table's words, and what the decoder can give (spec/30_encoding.md section 1; assumption
log entries 2 and 3). -/

/-! ### What the decoder can give -/

namespace Sys2Proof

/-- What `d`, decoded from `bs`, gives: a value with `P` and a rest that is what `bs` ends with. -/
def Decoded.Gives {α : Type} (d : Decoded α) (bs : List Byte) (P : α → Prop) : Prop :=
  ∀ x rest, d = .ok (x, rest) → P x ∧ rest <:+ bs

section
variable {α : Type} {P : α → Prop} {bs cs : List Byte}

theorem Decoded.gives_error (e : DecodeError) : Decoded.Gives (.error e) bs P := nofun

theorem Decoded.gives_ok {x : α} (hx : P x) (hcs : cs <:+ bs) : Decoded.Gives (.ok (x, cs)) bs P := by
  rintro _ _ ⟨⟩
  exact ⟨hx, hcs⟩

theorem Decoded.Gives.mono {d : Decoded α} (h : d.Gives cs P) (hcs : cs <:+ bs) : d.Gives bs P :=
  fun x rest hd => ⟨(h x rest hd).1, (h x rest hd).2.trans hcs⟩

theorem Decoded.Gives.cons {d : Decoded α} {b : Byte} (h : d.Gives bs P) : d.Gives (b :: bs) P :=
  h.mono (List.suffix_cons b bs)

theorem thenInstr_gives {d : Decoded α} {f : α → Instr} (h : d.Gives bs P) (hf : ∀ x, P x → (f x).WellFormed) :
    (thenInstr d f).Gives bs Instr.WellFormed := by
  obtain e | ⟨x, rest⟩ := d
  · exact Decoded.gives_error e
  · obtain ⟨hx, hrest⟩ := h x rest rfl
    exact Decoded.gives_ok (hf x hx) hrest

end

theorem takeByte_gives (bs : List Byte) : (takeByte bs).Gives bs fun _ => True := by
  cases bs with
  | nil => exact Decoded.gives_error _
  | cons b bs => exact Decoded.gives_ok trivial (List.suffix_cons b bs)

theorem takeLE_gives (n : Nat) (bs : List Byte) : (takeLE n bs).Gives bs fun _ => True := by
  induction n generalizing bs with
  | zero => exact Decoded.gives_ok trivial List.suffix_rfl
  | succ n ih =>
    cases bs with
    | nil => exact Decoded.gives_error _
    | cons b bs =>
      rw [takeLE]
      split
      · next x rest h => exact Decoded.gives_ok trivial ((ih bs x rest h).2.trans (List.suffix_cons b bs))
      · exact Decoded.gives_error _

theorem takeBits_gives (w n : Nat) (bs : List Byte) : (takeBits w n bs).Gives bs fun _ => True := by
  rw [takeBits]
  split
  · next x rest h =>
    split
    · exact Decoded.gives_ok trivial (takeLE_gives n bs x rest h).2
    · exact Decoded.gives_error _
  · exact Decoded.gives_error _

theorem takeChannel_gives (bs : List Byte) : (takeChannel bs).Gives bs fun _ => True := by
  cases bs with
  | nil => exact Decoded.gives_error _
  | cons b bs =>
    rw [takeChannel]
    split
    · exact Decoded.gives_ok trivial (List.suffix_cons b bs)
    · exact Decoded.gives_ok trivial (List.suffix_cons b bs)
    · exact Decoded.gives_ok trivial (List.suffix_cons b bs)
    · exact Decoded.gives_error _

theorem takeEntry_gives (bs : List Byte) : (takeEntry bs).Gives bs fun _ => True := by
  cases bs with
  | nil => exact Decoded.gives_error _
  | cons b bs =>
    rw [takeEntry]
    split
    · next x rest h => exact Decoded.gives_ok trivial ((takeLE_gives 9 bs x rest h).2.trans (List.suffix_cons b bs))
    · exact Decoded.gives_error _

theorem takeEntries_gives (n : Nat) (bs : List Byte) : (takeEntries n bs).Gives bs fun _ => True := by
  induction n generalizing bs with
  | zero => exact Decoded.gives_ok trivial List.suffix_rfl
  | succ n ih =>
    rw [takeEntries]
    split
    · next e rest h =>
      split
      · next m rest' h' => exact Decoded.gives_ok trivial ((ih rest m rest' h').2.trans (takeEntry_gives bs e rest h).2)
      · exact Decoded.gives_error _
    · exact Decoded.gives_error _

/-- Only the canonical form is a map: the decoder checks it. -/
theorem takeFieldMap_gives (bs : List Byte) : (takeFieldMap bs).Gives bs fun m => m.wf = true := by
  rw [takeFieldMap]
  split
  · next n rest h =>
    split
    · next m rest' h' =>
      split
      · next hm =>
        exact Decoded.gives_ok hm ((takeEntries_gives n rest m rest' h').2.trans (takeLE_gives 2 bs n rest h).2)
      · exact Decoded.gives_error _
    · exact Decoded.gives_error _
  · exact Decoded.gives_error _

theorem instrOfWr_wf (a v : Byte) : (instrOfWr a v).WellFormed := by
  unfold instrOfWr
  split <;> rfl

theorem instrOfShape_wf (v : Byte) : (instrOfShape v).WellFormed := by
  unfold instrOfShape
  split <;> rfl

/-! ### The formats -/

theorem decodeWr_gives (bs : List Byte) : (decodeWr bs).Gives bs Instr.WellFormed := by
  unfold decodeWr
  split
  · next a v rest => exact Decoded.gives_ok (instrOfWr_wf a v) ⟨[a, v], rfl⟩
  · exact Decoded.gives_error _

theorem decodeWriteReg_gives (bs : List Byte) : (decodeWriteReg bs).Gives bs Instr.WellFormed := by
  unfold decodeWriteReg
  split
  · next a v rest => exact Decoded.gives_ok rfl ⟨[a, v], rfl⟩
  · exact Decoded.gives_error _

theorem decodeRd_gives (bs : List Byte) : (decodeRd bs).Gives bs Instr.WellFormed :=
  thenInstr_gives (takeByte_gives bs) fun _ _ => rfl

theorem decodeTk_gives (bs : List Byte) : (decodeTk bs).Gives bs Instr.WellFormed := by
  unfold decodeTk
  split
  · exact Decoded.gives_error _
  · next b rest =>
    apply Decoded.Gives.cons
    split
    · exact thenInstr_gives (takeBits_gives 64 8 rest) fun _ _ => rfl
    · exact thenInstr_gives (takeBits_gives 64 8 rest) fun _ _ => rfl
    · exact Decoded.gives_error _

theorem decodeN0_gives (bs : List Byte) : (decodeN0 bs).Gives bs Instr.WellFormed := by
  unfold decodeN0
  split
  · exact Decoded.gives_error _
  · apply Decoded.Gives.cons
    split
    case h_5 => exact Decoded.gives_error _
    all_goals exact Decoded.gives_ok rfl List.suffix_rfl

theorem decodeBl_gives (bs : List Byte) : (decodeBl bs).Gives bs Instr.WellFormed :=
  thenInstr_gives (takeFieldMap_gives bs) fun _ hm => hm

theorem decodeInt_gives (bs : List Byte) : (decodeInt bs).Gives bs Instr.WellFormed := by
  unfold decodeInt
  split
  · exact Decoded.gives_error _
  · next b rest =>
    apply Decoded.Gives.cons
    split
    case h_1 | h_2 | h_3 | h_4 | h_17 | h_18 | h_19 => exact thenInstr_gives (takeChannel_gives rest) fun _ _ => rfl
    case h_7 | h_16 => exact thenInstr_gives (takeBits_gives _ _ rest) fun _ _ => rfl
    case h_22 => exact Decoded.gives_error _
    all_goals exact Decoded.gives_ok rfl List.suffix_rfl

theorem decodeSh_gives (bs : List Byte) : (decodeSh bs).Gives bs Instr.WellFormed :=
  thenInstr_gives (takeByte_gives bs) fun v _ => instrOfShape_wf v

theorem decodeWtp_gives (bs : List Byte) : (decodeWtp bs).Gives bs Instr.WellFormed := by
  rw [decodeWtp]
  split
  · next c rest h =>
    exact (thenInstr_gives (takeBits_gives 12 2 rest) fun _ _ => rfl).mono (takeChannel_gives bs c rest h).2
  · exact Decoded.gives_error _

theorem decodePseudo_gives (bs : List Byte) : (decodePseudo bs).Gives bs Instr.WellFormed := by
  unfold decodePseudo
  split
  · exact Decoded.gives_error _
  · next b rest =>
    apply Decoded.Gives.cons
    split
    · exact decodeWtp_gives rest
    · exact thenInstr_gives (takeBits_gives 16 2 rest) fun _ _ => rfl
    · exact thenInstr_gives (takeBits_gives 60 8 rest) fun _ _ => rfl
    · exact thenInstr_gives (takeBits_gives 56 8 rest) fun _ _ => rfl
    · exact Decoded.gives_error _

/-- Behind the format byte each format gives a well-formed operation. -/
theorem decode_cons_gives (f : Byte) (bs : List Byte) : (decode (f :: bs)).Gives bs Instr.WellFormed := by
  rw [decode]
  split
  · exact decodeWr_gives bs
  · exact decodeRd_gives bs
  · exact decodeTk_gives bs
  · exact decodeN0_gives bs
  · exact decodeBl_gives bs
  · exact decodeInt_gives bs
  · exact decodeSh_gives bs
  · exact decodePseudo_gives bs
  · exact decodeWriteReg_gives bs
  · exact Decoded.gives_error _

/-- Settles O59: the format byte is used in any case, and the formats give what they check. -/
theorem decodedOperationsAreWellFormed : Obligations.DecodedOperationsAreWellFormed := by
  intro bs rest i h
  cases bs with
  | nil => cases h
  | cons f bs =>
    obtain ⟨hwf, used, hused⟩ := decode_cons_gives f bs i rest h
    exact ⟨hwf, f :: used, List.cons_ne_nil f used, by rw [← hused, List.cons_append]⟩

end Sys2Proof

namespace Sys2Proof.Machine

/-! ### The fetch -/

theorem step_of_decode {s : State} {i : Instr} {rest : List Byte} (h : decode s.requests = .ok (i, rest)) :
    step s = exec i { s with requests := rest } := by
  unfold step
  split
  · next hs => rw [hs] at h; cases h
  · rw [h]

theorem step_of_decode_error {s : State} {e : DecodeError} (hs : s.requests ≠ []) (h : decode s.requests = .error e) :
    step s = .refused (.malformedRequest e) := by
  unfold step
  split
  · next hnil => exact absurd hnil hs
  · rw [h]

theorem step_of_no_request {s : State} (h : s.requests = []) : step s = .next s := by
  rw [step, h]

/-- A step that gives a next state has run an operation, or there was none to run. -/
theorem step_cases {s t : State} (h : step s = .next t) :
    t = s ∨ ∃ i rest, exec i { s with requests := rest } = .next t := by
  by_cases hs : s.requests = []
  · rw [step_of_no_request hs] at h
    cases h
    exact .inl rfl
  · cases hd : decode s.requests with
    | error e =>
      rw [step_of_decode_error hs hd] at h
      cases h
    | ok d =>
      rw [step_of_decode hd] at h
      exact .inr ⟨d.1, d.2, h⟩

/-- Settles O54: one lemma per case of the fetch. -/
theorem stepRunsTheDecodedRequest : Obligations.StepRunsTheDecodedRequest :=
  ⟨fun _ _ _ h => step_of_decode h, fun _ _ hs h => step_of_decode_error hs h, fun _ h => step_of_no_request h⟩

/-! ### The table's words -/

theorem decodeTableWord_sixteen (w : Nat) :
    decodeTableWord 16 w = some (instrOfWr (BitVec.ofNat 8 (w / 256)) (BitVec.ofNat 8 w)) := rfl

theorem decodeTableWord_eight (w : Nat) :
    decodeTableWord 8 w =
      some (if w % 256 < 16 then .readReg (BitVec.ofNat 8 w) else instrOfShape (BitVec.ofNat 8 w)) := by
  rw [decodeTableWord, tableRequest]
  split_ifs <;> rfl

/-- A word of another length is no request. -/
theorem decodeTableWord_other {nbits : Nat} (h16 : nbits ≠ 16) (h8 : nbits ≠ 8) (w : Nat) :
    decodeTableWord nbits w = none := by
  have hreq : tableRequest nbits w = [0xFF] := by
    unfold tableRequest
    split
    · exact absurd rfl h16
    · exact absurd rfl h8
    · rfl
  rw [decodeTableWord, hreq]
  rfl

/-- A table word's request is read off the front of whatever is pending. -/
theorem decode_tableRequest_append {nbits w : Nat} {i : Instr} (h : decodeTableWord nbits w = some i)
    (pending : List Byte) : decode (tableRequest nbits w ++ pending) = .ok (i, pending) := by
  by_cases h16 : nbits = 16
  · subst h16
    rw [decodeTableWord_sixteen] at h
    cases h
    rfl
  by_cases h8 : nbits = 8
  · subst h8
    rw [decodeTableWord_eight] at h
    cases h
    rw [tableRequest]
    split_ifs <;> rfl
  · rw [decodeTableWord_other h16 h8] at h
    cases h

/-- Settles O55: the placed word decodes with the pending requests behind it, and the step runs it. -/
theorem placedTableWordRunsNext : Obligations.PlacedTableWordRunsNext :=
  fun s _ _ _ h => step_of_decode (s := s.withFetchWord _ _) (decode_tableRequest_append h s.requests)

/-- Settles O56: each word is the WR, RD or SH form with the operands read off it. -/
theorem tableWordsDecodeAsWritten : Obligations.TableWordsDecodeAsWritten := by
  refine ⟨?_, ?_, ?_, ?_, ?_, ?_⟩ <;> rfl

/-- R81, R110: below 16 the write of the register is the common rule at its address. -/
theorem exec_instrOfWr (a v : Byte) (s : State) : exec (instrOfWr a v) s = exec (.writeReg a v) s := by
  by_cases ha : a.toNat < 16
  · obtain ⟨n, hn⟩ : ∃ n : Fin 16, a = BitVec.ofNat 8 n := ⟨⟨a.toNat, ha⟩, by simp⟩
    subst hn
    fin_cases n <;> rfl
  · have h : instrOfWr a v = .writeReg a v := by
      unfold instrOfWr
      split
      case h_17 => rfl
      all_goals omega
    rw [h]

/-- Settles O57: the word decodes to the write of its address byte, which runs as WRITE_REG. -/
theorem everyWrWordIsAWrite : Obligations.EveryWrWordIsAWrite := by
  intro w _
  have hbyte : BitVec.ofNat 8 (w % 256) = BitVec.ofNat 8 w := by
    apply BitVec.eq_of_toNat_eq
    simp
  rw [hbyte]
  exact ⟨_, decodeTableWord_sixteen w, exec_instrOfWr _ _⟩

end Sys2Proof.Machine
end

