-- ==== Sys2Proof/Proofs/FieldMaps.lean ====
section
/-! EXPORT_STATE and IMPORT_STATE (spec/47_host_ops.md): the table R274 row by row, and the map as a picture of the
hardware. -/

namespace Sys2Proof.Machine

/-! ### The table's rows -/

/-- A property of the 36 fields, row by row of R274. -/
theorem forall_mapFields {P : Field → Prop} :
    (∀ f ∈ mapFields, P f) ↔
      (∀ a, P (.reg a)) ∧ (∀ c, P (.tonePeriod c)) ∧ (∀ c, P (.toneCounter c)) ∧ (∀ c, P (.toneOut c)) ∧
      P .noiseLfsr ∧ P .noisePeriod ∧ P .noiseCounter ∧ P .noiseOut ∧
      P .envPeriod ∧ P .envCounter ∧ P .envLevel ∧ P .envShape ∧ P .envHolding ∧ P .envAttacking ∧ P .mclk := by
  constructor
  · intro h
    refine ⟨fun a => h _ (by revert a; decide), fun c => h _ (by cases c <;> decide),
      fun c => h _ (by cases c <;> decide), fun c => h _ (by cases c <;> decide), ?_⟩
    refine ⟨?_, ?_, ?_, ?_, ?_, ?_, ?_, ?_, ?_, ?_, ?_⟩ <;> exact h _ (by decide)
  · rintro ⟨hreg, htp, htc, hto, hl, hnp, hnc, hno, hep, hec, hel, hes, heh, hea, hm⟩ f hf
    cases f with
    | reg a => exact hreg a
    | tonePeriod c => exact htp c
    | toneCounter c => exact htc c
    | toneOut c => exact hto c
    | other code => simp [mapFields] at hf
    | _ => assumption

theorem mapFields_codes : mapFields.map Field.code = List.range 36 := by decide

/-! ### The check of an import (R273, R275) -/

theorem badField_eq_false_iff {m : FieldMap} {f : Field} :
    badField m f = false ↔ FieldMap.has m f (fieldRange f).1 (fieldRange f).2 := by
  unfold badField FieldMap.has
  cases fieldOf m f <;> simp

theorem importable_iff (m : FieldMap) :
    FieldMap.Importable m ↔ ∀ f ∈ mapFields, FieldMap.has m f (fieldRange f).1 (fieldRange f).2 :=
  (forall_mapFields (P := fun f => FieldMap.has m f (fieldRange f).1 (fieldRange f).2)).symm

theorem firstBadField_eq_none_iff {m : FieldMap} : firstBadField m = none ↔ FieldMap.Importable m := by
  simp only [firstBadField, List.find?_eq_none, Bool.not_eq_true, badField_eq_false_iff, importable_iff]

theorem execImportState_of_importable {m : FieldMap} (h : FieldMap.Importable m) (s : State) :
    execImportState m s = s.complete (importPsg m) .done := by
  rw [execImportState, firstBadField_eq_none_iff.mpr h]

theorem execImportState_of_bad {m : FieldMap} {f : Field} (h : firstBadField m = some f) (s : State) :
    execImportState m s = s.raise (.eImport f) := by
  rw [execImportState, h]

/-- The rejected field is bad, and every field before it in the table is good. -/
theorem firstBadField_eq_some {m : FieldMap} {f : Field} (h : firstBadField m = some f) :
    f ∈ mapFields ∧ badField m f = true ∧ ∀ g ∈ mapFields, g.code < f.code → badField m g = false := by
  obtain ⟨hbad, before, after, hsplit, hgood⟩ := List.find?_eq_some_iff_append.mp h
  refine ⟨by simp [hsplit], hbad, fun g hg hlt => ?_⟩
  have hsorted : (mapFields.map Field.code).Pairwise (· < ·) := by rw [mapFields_codes]; exact List.pairwise_lt_range
  rw [hsplit] at hg hsorted
  simp only [List.map_append, List.map_cons, List.pairwise_append, List.pairwise_cons, List.mem_map] at hsorted
  obtain ⟨-, ⟨hafter, -⟩, -⟩ := hsorted
  obtain hbefore | rfl | hlater := by simpa using hg
  · simpa using hgood g hbefore
  · exact absurd hlt (lt_irrefl _)
  · exact absurd (hafter _ ⟨g, hlater, rfl⟩) (Nat.lt_asymm hlt)

/-- Settles O43: the check finds the first bad field of the table and the operation raises with it. -/
theorem importRejectsTheFirstBadField : Obligations.ImportRejectsTheFirstBadField := by
  intro s m hm
  obtain ⟨f, hf⟩ := Option.ne_none_iff_exists'.mp (mt firstBadField_eq_none_iff.mp hm)
  obtain ⟨hmem, hbad, hbefore⟩ := firstBadField_eq_some hf
  refine ⟨f, hmem, execImportState_of_bad hf s, ?_, fun g hg hlt => badField_eq_false_iff.mp (hbefore g hg hlt)⟩
  rw [← badField_eq_false_iff, hbad]
  decide

/-! ### A map as a picture of the hardware -/

theorem boolInt_eq_toNat (b : Bool) : boolInt b = (b.toNat : Int) := by cases b <;> rfl

theorem boolInt_inj {a b : Bool} : boolInt a = boolInt b ↔ a = b := by cases a <;> cases b <;> decide

theorem describes_iff (m : FieldMap) (p : Psg) :
    FieldMap.Describes m p ↔ ∀ f ∈ mapFields, fieldOf m f = some (p.field f) := by
  simp only [forall_mapFields, FieldMap.Describes, Psg.field, boolInt_eq_toNat, Psg.cell_eq]

/-- The 36 values determine the hardware (R20). -/
theorem Psg.eq_of_field_eq {p q : Psg} (h : ∀ f ∈ mapFields, p.field f = q.field f) : p = q := by
  simp only [forall_mapFields, Psg.field, boolInt_inj, Nat.cast_inj, BitVec.toNat_inj] at h
  obtain ⟨hreg, htp, htc, hto, hl, hnp, hnc, hno, hep, hec, hel, hes, heh, hea, hm⟩ := h
  refine Psg.eq_of_fields hreg (fun c => ?_) ?_ ?_ hm
  · exact (Tone.mk.injEq ..).mpr ⟨htp c, htc c, hto c⟩
  · exact (Noise.mk.injEq ..).mpr ⟨hl, hnp, hnc, hno⟩
  · exact (Env.mk.injEq ..).mpr ⟨hep, hec, hel, hes, heh, hea⟩

/-! ### EXPORT_STATE -/

theorem fieldOf_map {fs : List Field} {f : Field} (hf : f ∈ fs) (value : Field → Int) :
    fieldOf (fs.map fun g => (g, value g)) f = some (value f) := by
  induction fs with
  | nil => cases hf
  | cons g fs ih =>
    simp only [List.map_cons, fieldOf]
    split
    · next h => rw [h]
    · next h => exact ih ((List.mem_cons.mp hf).resolve_left (Ne.symm h))

theorem fieldOf_exportMap (p : Psg) : ∀ f ∈ mapFields, fieldOf (exportMap p) f = some (p.field f) :=
  fun _ hf => fieldOf_map hf p.field

theorem exportMap_codes (p : Psg) : FieldMap.codes (exportMap p) = List.range 36 := by
  rw [← mapFields_codes, FieldMap.codes, exportMap, List.map_map]
  rfl

theorem mapFields_wf : ∀ f ∈ mapFields, f.wf = true := by decide

theorem exportMap_field_wf (p : Psg) : (exportMap p).all (fun e => e.1.wf) = true := by
  rw [exportMap, List.all_map]
  exact List.all_eq_true.mpr mapFields_wf

/-- Settles O41: the map is the table with each field's current value. -/
theorem exportGivesEveryField : Obligations.ExportGivesEveryField :=
  fun s => ⟨exportMap s.psg, State.answer_eq s (.fields (exportMap s.psg)), exportMap_codes s.psg,
    exportMap_field_wf s.psg, (describes_iff _ _).mpr (fieldOf_exportMap s.psg)⟩

/-! ### IMPORT_STATE -/

@[simp] theorem importPsg_reg (m : FieldMap) (a : Fin 16) : (importPsg m).reg a = fieldBits 8 m (.reg a) := by
  simp [Psg.reg, importPsg]

@[simp] theorem importPsg_tone (m : FieldMap) (c : Channel) : (importPsg m).tone c = importTone m c := by
  cases c <;> rfl

section
variable {m : FieldMap} {f : Field}

/-- A value in range is held by the element's bits. -/
theorem fieldOf_eq_fieldBits {w : Nat} {lo hi : Int} (h : FieldMap.has m f lo hi) (hlo : 0 ≤ lo)
    (hhi : hi < 2 ^ w) : fieldOf m f = some ((fieldBits w m f).toNat : Int) := by
  obtain ⟨v, hv, hv1, hv2⟩ := h
  have hval : fieldVal m f = v := by rw [fieldVal, hv, Option.getD_some]
  have hmod : v % (2 ^ w : Nat) = v := Int.emod_eq_of_lt (by omega) (by push_cast; omega)
  rw [hv, fieldBits, hval, BitVec.toNat_ofInt, hmod, Int.toNat_of_nonneg (by omega)]

theorem fieldOf_eq_fieldBool (h : FieldMap.has m f 0 1) : fieldOf m f = some (boolInt (fieldBool m f)) := by
  obtain ⟨v, hv, hv1, hv2⟩ := h
  have hval : fieldVal m f = v := by rw [fieldVal, hv, Option.getD_some]
  obtain rfl | rfl : v = 0 ∨ v = 1 := by omega
  all_goals rw [hv, fieldBool, hval]; rfl

end

theorem fieldOf_importPsg {m : FieldMap} (h : FieldMap.Importable m) :
    ∀ f ∈ mapFields, fieldOf m f = some ((importPsg m).field f) := by
  obtain ⟨hreg, htp, htc, hto, hl, hnp, hnc, hno, hep, hec, hel, hes, heh, hea, hm⟩ := h
  simp only [forall_mapFields, Psg.field, importPsg_reg, importPsg_tone]
  exact ⟨fun a => fieldOf_eq_fieldBits (hreg a) le_rfl (by decide),
    fun c => fieldOf_eq_fieldBits (htp c) (by decide) (by decide),
    fun c => fieldOf_eq_fieldBits (htc c) le_rfl (by decide), fun c => fieldOf_eq_fieldBool (hto c),
    fieldOf_eq_fieldBits hl le_rfl (by decide), fieldOf_eq_fieldBits hnp (by decide) (by decide),
    fieldOf_eq_fieldBits hnc le_rfl (by decide), fieldOf_eq_fieldBool hno,
    fieldOf_eq_fieldBits hep (by decide) (by decide), fieldOf_eq_fieldBits hec le_rfl (by decide),
    fieldOf_eq_fieldBits hel le_rfl (by decide), fieldOf_eq_fieldBits hes le_rfl (by decide),
    fieldOf_eq_fieldBool heh, fieldOf_eq_fieldBool hea, fieldOf_eq_fieldBits hm le_rfl (by decide)⟩

/-- Settles O42: a map in range passes the check, and each element's bits hold the map's value. -/
theorem importReplacesEveryElement : Obligations.ImportReplacesEveryElement :=
  fun s m hm => ⟨importPsg m, execImportState_of_importable hm s, (describes_iff _ _).mpr (fieldOf_importPsg hm)⟩

/-! ### Export, then import -/

theorem toNat_mem_range {w : Nat} (v : BitVec w) :
    0 ≤ (v.toNat : Int) ∧ (v.toNat : Int) ≤ ((2 ^ w - 1 : Nat) : Int) :=
  ⟨Int.natCast_nonneg _, Int.ofNat_le.mpr (Nat.le_sub_one_of_lt v.isLt)⟩

theorem toNat_mem_range_of_ne_zero {w : Nat} {v : BitVec w} (h : v ≠ 0) :
    1 ≤ (v.toNat : Int) ∧ (v.toNat : Int) ≤ ((2 ^ w - 1 : Nat) : Int) := by
  have hv : v.toNat ≠ 0 := fun e => h (BitVec.eq_of_toNat_eq (by simpa using e))
  exact ⟨by omega, (toNat_mem_range v).2⟩

theorem boolInt_mem_range (b : Bool) : 0 ≤ boolInt b ∧ boolInt b ≤ 1 := by cases b <;> decide

theorem Psg.PeriodsPositive.tone {p : Psg} (h : p.PeriodsPositive) (c : Channel) : (p.tone c).period ≠ 0 := by
  obtain ⟨hA, hB, hC, -, -⟩ := h
  cases c
  · exact hA
  · exact hB
  · exact hC

/-- R40 (a) is all that a state needs for its values to be in the ranges of R274. -/
theorem Psg.field_mem_range {p : Psg} (h : p.PeriodsPositive) :
    ∀ f ∈ mapFields, (fieldRange f).1 ≤ p.field f ∧ p.field f ≤ (fieldRange f).2 := by
  have htone := h.tone
  obtain ⟨-, -, -, hnoise, henv⟩ := h
  rw [forall_mapFields]
  exact ⟨fun a => toNat_mem_range _, fun c => toNat_mem_range_of_ne_zero (htone c), fun c => toNat_mem_range _,
    fun c => boolInt_mem_range _, toNat_mem_range _, toNat_mem_range_of_ne_zero hnoise, toNat_mem_range _,
    boolInt_mem_range _, toNat_mem_range_of_ne_zero henv, toNat_mem_range _, toNat_mem_range _, toNat_mem_range _,
    boolInt_mem_range _, boolInt_mem_range _, toNat_mem_range _⟩

theorem exportMap_importable {p : Psg} (h : p.PeriodsPositive) : FieldMap.Importable (exportMap p) := by
  rw [importable_iff]
  exact fun f hf => ⟨p.field f, fieldOf_exportMap p f hf, Psg.field_mem_range h f hf⟩

/-- Both have the values of the one map, and the values determine the hardware. -/
theorem importPsg_exportMap {p : Psg} (h : p.PeriodsPositive) : importPsg (exportMap p) = p := by
  apply Psg.eq_of_field_eq
  intro f hf
  have himport := fieldOf_importPsg (exportMap_importable h) f hf
  rw [fieldOf_exportMap p f hf] at himport
  exact (Option.some.inj himport).symm

/-- The ranges of R274 lie well inside the nine bytes a request gives a value. -/
theorem fieldRange_fits : ∀ f ∈ mapFields, -(2 ^ 71) ≤ (fieldRange f).1 ∧ (fieldRange f).2 < 2 ^ 71 := by decide

theorem exportMap_wf {p : Psg} (h : p.PeriodsPositive) : FieldMap.wf (exportMap p) = true := by
  rw [FieldMap.wf_iff, exportMap_codes]
  refine ⟨fun e he => ?_, by decide⟩
  obtain ⟨f, hf, rfl⟩ := List.mem_map.mp he
  obtain ⟨hlo, hhi⟩ := Psg.field_mem_range h f hf
  obtain ⟨hmin, hmax⟩ := fieldRange_fits f hf
  exact ⟨mapFields_wf f hf, decide_eq_true ⟨hmin.trans hlo, hhi.trans_lt hmax⟩⟩

/-- Settles O44: an exported map passes the check, and its import is the hardware it was read from. -/
theorem exportThenImportRestoresTheState : Obligations.ExportThenImportRestoresTheState := by
  intro s u h
  refine ⟨exportMap s.psg, State.answer_eq s (.fields (exportMap s.psg)), ?_, exportMap_wf h⟩
  have himport := execImportState_of_importable (exportMap_importable h) u
  rwa [importPsg_exportMap h] at himport

end Sys2Proof.Machine
end

