-- ==== Sys2Proof/Proofs/Writes.lean ====
section
/-! What a write leaves in each element (spec/40_register_ops.md), and the invariants of the periods and the shape
(spec/10_state.md R40). -/

namespace Sys2Proof.Machine

/-! ### The assembled fields read only their own registers -/

section
variable {p q : Psg}

theorem tonePeriodField_congr (h : p.regs = q.regs) (c : Channel) : tonePeriodField p c = tonePeriodField q c := by
  simp only [tonePeriodField, Psg.reg, h]

theorem noisePeriodField_congr (h : p.regs = q.regs) : noisePeriodField p = noisePeriodField q := by
  simp only [noisePeriodField, Psg.reg, h]

theorem envPeriodField_congr (h : p.regs = q.regs) : envPeriodField p = envPeriodField q := by
  simp only [envPeriodField, Psg.reg, h]

theorem shapeField_congr (h : p.regs = q.regs) : shapeField p = shapeField q := by
  simp only [shapeField, Psg.reg, h]

end

section
variable {a : Fin 16} (v : Byte) (p : Psg)

theorem tonePeriodField_setReg_other {c : Channel} (h : ¬ (a = fineReg c ∨ a = coarseReg c)) :
    tonePeriodField (p.setReg a v) c = tonePeriodField p c := by
  obtain ⟨hfine, hcoarse⟩ := not_or.mp h
  rw [tonePeriodField, Psg.setReg_reg_other _ _ _ _ (Ne.symm hfine), Psg.setReg_reg_other _ _ _ _ (Ne.symm hcoarse),
    tonePeriodField]

theorem noisePeriodField_setReg_other (h : a ≠ 6) : noisePeriodField (p.setReg a v) = noisePeriodField p := by
  rw [noisePeriodField, Psg.setReg_reg_other _ _ _ _ h.symm, noisePeriodField]

theorem envPeriodField_setReg_other (h : ¬ (a = 11 ∨ a = 12)) : envPeriodField (p.setReg a v) = envPeriodField p := by
  obtain ⟨hfine, hcoarse⟩ := not_or.mp h
  rw [envPeriodField, Psg.setReg_reg_other _ _ _ _ (Ne.symm hfine), Psg.setReg_reg_other _ _ _ _ (Ne.symm hcoarse),
    envPeriodField]

theorem shapeField_setReg_other (h : a ≠ 13) : shapeField (p.setReg a v) = shapeField p := by
  rw [shapeField, Psg.setReg_reg_other _ _ _ _ h.symm, shapeField]

end

/-! ### A write, element by element (R110) -/

section
variable (a : Fin 16) (v : Byte) (p : Psg)

theorem writeCell_reg (b : Fin 16) : (writeCell a v p).reg b = if b = a then v else p.reg b := by
  have h : (writeCell a v p).reg b = (p.setReg a v).reg b := by rw [Psg.reg, writeCell_regs, Psg.reg]
  rw [h, Psg.setReg_reg]

theorem writeCell_tone (c : Channel) :
    (writeCell a v p).tone c =
      if a = fineReg c ∨ a = coarseReg c then
        { p.tone c with period := clamp1 (tonePeriodField (p.setReg a v) c) }
      else p.tone c := by
  fin_cases a <;> cases c <;> rfl

theorem writeCell_noise_eq :
    (writeCell a v p).noise =
      if a = 6 then { p.noise with period := clamp1 (noisePeriodField (p.setReg a v)) } else p.noise := by
  fin_cases a <;> rfl

theorem writeCell_env :
    (writeCell a v p).env =
      if a = 11 ∨ a = 12 then { p.env with period := clamp1 (envPeriodField (p.setReg a v)) }
      else if a = 13 then p.env.restart (shapeField (p.setReg a v)) else p.env := by
  fin_cases a <;> rfl

end

/-! ### WRITE_REG (R110) -/

/-- A write to an address leaves the hardware as it was where no cell has the address. -/
def writeAddress (a v : Byte) (p : Psg) : Psg := ((cellOf a).map fun i => writeCell i v p).getD p

theorem writeAddress_legal {a : Byte} (h : a.toNat < 16) (v : Byte) (p : Psg) :
    writeAddress a v p = writeCell ⟨a.toNat, h⟩ v p := by
  rw [writeAddress, cellOf_some h, Option.map_some, Option.getD_some]

theorem writeAddress_illegal {a : Byte} (h : ¬ a.toNat < 16) (v : Byte) (p : Psg) : writeAddress a v p = p := by
  rw [writeAddress, cellOf_none h, Option.map_none, Option.getD_none]

theorem exec_writeReg_legal {a : Byte} (h : a.toNat < 16) (v : Byte) (s : State) :
    exec (.writeReg a v) s = .next { s with psg := writeCell ⟨a.toNat, h⟩ v s.psg, reply := .done } := by
  have hexec : exec (.writeReg a v) s = execWriteReg a v s := rfl
  rw [hexec, execWriteReg, cellOf_some h]
  rfl

theorem exec_writeReg_address (a v : Byte) (s : State) :
    ∃ r, exec (.writeReg a v) s = .next { s with psg := writeAddress a v s.psg, reply := r } := by
  by_cases h : a.toNat < 16
  · exact ⟨_, by rw [exec_writeReg_legal h, writeAddress_legal h]⟩
  · exact ⟨_, by rw [writeAddress_illegal h]; exact execWriteReg_of_illegal s v h⟩

/-- Settles O9: at each address the cell selected is the register's. -/
theorem writeRegSelectsTheRegister : Obligations.WriteRegSelectsTheRegister := by
  intro s v
  refine ⟨?_, ?_, ?_, ?_, ?_, ?_, ?_, ?_, ?_, ?_, ?_, ?_, ?_, ?_, ?_, ?_⟩ <;>
    exact exec_writeReg_legal (by decide) v s

/-- Settles O10: the register file is the store's, and the elements' other parts are kept by the side effect. -/
theorem writeRegStoresOneCell : Obligations.WriteRegStoresOneCell := by
  intro s a v ha
  have legal : a.toNat < 16 := by omega
  obtain ⟨hlfsr, hcounter, hout⟩ := writeCell_noise_lfsr ⟨a.toNat, legal⟩ v s.psg
  refine ⟨_, exec_writeReg_legal legal v s, rfl, rfl, fun n hn => ?_, writeCell_mclk _ v s.psg, fun c => ?_,
    hcounter, hout, hlfsr, ?_⟩
  · have hcell := Psg.cell_eq (writeCell ⟨a.toNat, legal⟩ v s.psg) ⟨n, by omega⟩
    rw [hcell, writeCell_reg, apply_ite BitVec.toNat, ← Psg.cell_eq]
    simp only [Fin.mk.injEq]
  · rw [writeCell_tone]
    split <;> exact ⟨rfl, rfl⟩
  · rw [writeCell_env]
    split_ifs <;> rfl

/-- Settles O5: the four registers have no side effect. -/
theorem writeMixerAndVolumeRegisters : Obligations.WriteMixerAndVolumeRegisters := fun s v =>
  ⟨State.complete_of_eq (writeCell_plain 7 (by decide) v s.psg),
   State.complete_of_eq (writeCell_plain 8 (by decide) v s.psg),
   State.complete_of_eq (writeCell_plain 9 (by decide) v s.psg),
   State.complete_of_eq (writeCell_plain 10 (by decide) v s.psg)⟩

/-- Settles O8: the two registers have no side effect. -/
theorem writeIoRegisters : Obligations.WriteIoRegisters := fun s v =>
  ⟨State.complete_of_eq (writeCell_plain 14 (by decide) v s.psg),
   State.complete_of_eq (writeCell_plain 15 (by decide) v s.psg)⟩

/-! ### The shape register (R124, R181) -/

/-- R181 on the byte of R[13] as an integer. -/
theorem restart_lowNibble (e : Env) (v : Byte) :
    e.restart (lowNibble v) =
      { e with
        shape := BitVec.ofNat 4 (v.toNat &&& 0xF)
        attacking := v.toNat.testBit 2
        level := if v.toNat.testBit 2 then 0 else 15
        holding := false } := by
  rw [Env.restart, attackBit_lowNibble, lowNibble_eq, startLevel]

/-- R124. -/
theorem writeCell_thirteen_cell (v : Byte) (p : Psg) :
    writeCell 13 v p = { p with
      regs := p.regs.set 13 v
      env := { p.env with
        shape := BitVec.ofNat 4 (v.toNat &&& 0xF)
        attacking := v.toNat.testBit 2
        level := if v.toNat.testBit 2 then 0 else 15
        holding := false } } := by
  rw [writeCell_thirteen, restart_lowNibble]
  rfl

/-- R181. -/
theorem setEnvShape_cell (p : Psg) :
    setEnvShape p = { p with
      env := { p.env with
        shape := BitVec.ofNat 4 (p.cell 13 &&& 0xF)
        attacking := (p.cell 13).testBit 2
        level := if (p.cell 13).testBit 2 then 0 else 15
        holding := false } } := by
  have hcell : p.cell 13 = (p.reg 13).toNat := p.cell_eq 13
  rw [setEnvShape, shapeField, restart_lowNibble, hcell]

/-- Settles O7: both restart the envelope from the low nibble of the byte, the written one or the stored one. -/
theorem shapeWriteRestartsEnvelope : Obligations.ShapeWriteRestartsEnvelope := fun s v =>
  ⟨State.complete_of_eq (writeCell_thirteen_cell v s.psg), State.complete_of_eq (setEnvShape_cell s.psg)⟩

theorem append_toNat (x code : BitVec 4) : (x ++ code : Byte) = BitVec.ofNat 8 (16 * x.toNat + code.toNat) := by
  apply BitVec.eq_of_toNat_eq
  have hx := x.isLt
  have hcode := code.isLt
  rw [BitVec.toNat_append, ← Nat.shiftLeft_add_eq_or_of_lt hcode, BitVec.toNat_ofNat, Nat.shiftLeft_eq]
  omega

theorem lowNibble_append (x code : BitVec 4) : lowNibble (x ++ code) = code := by
  revert x code; decide +kernel

/-- R98: the code restarts the envelope; the ignored bits are stored with it. -/
theorem writeShape_eq (x code : BitVec 4) (s : State) :
    writeShape x code s = .next { s with
      reply := .done
      psg := { s.psg with
        regs := s.psg.regs.set 13 (BitVec.ofNat 8 (16 * x.toNat + code.toNat))
        env := s.psg.env.restart code } } := by
  rw [← append_toNat]
  apply State.complete_of_eq
  rw [writeCell_thirteen, lowNibble_append]
  rfl

/-- Settles O28: each row is the write of its ignored bits and its code. -/
theorem shapeCodesAreWritesToR13 : Obligations.ShapeCodesAreWritesToR13 := by
  intro s x op code h
  simp only [List.mem_cons, Prod.mk.injEq, List.not_mem_nil, or_false] at h
  obtain ⟨rfl, rfl⟩ | ⟨rfl, rfl⟩ | ⟨rfl, rfl⟩ | ⟨rfl, rfl⟩ | ⟨rfl, rfl⟩ | ⟨rfl, rfl⟩ | ⟨rfl, rfl⟩ | ⟨rfl, rfl⟩ |
    ⟨rfl, rfl⟩ | ⟨rfl, rfl⟩ | ⟨rfl, rfl⟩ | ⟨rfl, rfl⟩ | ⟨rfl, rfl⟩ | ⟨rfl, rfl⟩ | ⟨rfl, rfl⟩ | ⟨rfl, rfl⟩ := h
  all_goals exact writeShape_eq x _ s

/-! ### Writes to different addresses (R129) -/

theorem Psg.setReg_comm (p : Psg) {a b : Fin 16} (h : a ≠ b) (v w : Byte) :
    (p.setReg a v).setReg b w = (p.setReg b w).setReg a v := by
  refine Psg.eq_of_fields (fun c => ?_) (fun c => by simp) rfl rfl rfl
  simp only [Psg.setReg_reg]
  split_ifs with hb ha
  · exact absurd (ha.symm.trans hb) h
  all_goals rfl

theorem writeCell_setReg_regs (a b : Fin 16) (v w : Byte) (p : Psg) :
    ((writeCell a v p).setReg b w).regs = ((p.setReg a v).setReg b w).regs := by
  rw [Psg.setReg_regs, writeCell_regs, Psg.setReg_regs (p.setReg a v)]

section
variable {α β : Type} {element : Psg → β} {field : Psg → α} {link : β → α → β} {S : Fin 16 → Prop} [DecidablePred S]
  {a b : Fin 16}

/-- An element that a write to a register of `S` links with a field of those registers, and that other writes keep:
two writes reach it in either order alike. -/
theorem linked_element_comm (congr : ∀ {p q : Psg}, p.regs = q.regs → field p = field q)
    (other : ∀ {a : Fin 16} (v : Byte) (p : Psg), ¬ S a → field (p.setReg a v) = field p)
    (write : ∀ (a : Fin 16) (v : Byte) (p : Psg),
      element (writeCell a v p) = if S a then link (element p) (field (p.setReg a v)) else element p)
    (relink : ∀ e x y, link (link e x) y = link e y) (h : a ≠ b) (v w : Byte) (p : Psg) :
    element (writeCell b w (writeCell a v p)) = element (writeCell a v (writeCell b w p)) := by
  have hab := congr (writeCell_setReg_regs a b v w p)
  have hba := congr (writeCell_setReg_regs b a w v p)
  have hcomm := p.setReg_comm h v w
  by_cases ha : S a <;> by_cases hb : S b <;> simp only [write, ha, hb, if_true, if_false]
  · rw [relink, relink, hab, hba, hcomm]
  · rw [hba, ← hcomm, other _ _ hb]
  · rw [hab, hcomm, other _ _ ha]

end

theorem Env.eq_of_period_eq {e f : Env} (hperiod : e.period = f.period)
    (hrest : { e with period := 0 } = { f with period := 0 }) : e = f := by
  cases e; cases f
  simp_all

/-- The two envelope period registers share the period, and R[13] has the rest. -/
theorem writeCell_env_comm {a b : Fin 16} (h : a ≠ b) (v w : Byte) (p : Psg) :
    (writeCell b w (writeCell a v p)).env = (writeCell a v (writeCell b w p)).env := by
  apply Env.eq_of_period_eq
  · refine linked_element_comm (element := fun p => p.env.period) (link := fun _ x => clamp1 x)
      envPeriodField_congr envPeriodField_setReg_other (fun a v p => ?_) (fun _ _ _ => rfl) h v w p
    rw [writeCell_env]
    split_ifs <;> rfl
  · refine linked_element_comm (element := fun p => { p.env with period := 0 }) (link := Env.restart)
      shapeField_congr shapeField_setReg_other (S := fun a => a = 13) (fun a v p => ?_) (fun _ _ _ => rfl) h v w p
    fin_cases a <;> rfl

theorem writeCell_comm {a b : Fin 16} (h : a ≠ b) (v w : Byte) (p : Psg) :
    writeCell b w (writeCell a v p) = writeCell a v (writeCell b w p) := by
  refine Psg.eq_of_fields (fun c => ?_) (fun c => ?_) ?_ (writeCell_env_comm h v w p) (by simp only [writeCell_mclk])
  · simp only [writeCell_reg]
    split_ifs with hb ha
    · exact absurd (ha.symm.trans hb) h
    all_goals rfl
  · exact linked_element_comm (element := fun p => p.tone c) (link := fun t x => { t with period := clamp1 x })
      (S := fun a => a = fineReg c ∨ a = coarseReg c) (fun h => tonePeriodField_congr h c)
      (fun v p h => tonePeriodField_setReg_other v p h) (fun a v p => writeCell_tone a v p c) (fun _ _ _ => rfl) h v w p
  · exact linked_element_comm (element := Psg.noise) (link := fun n x => { n with period := clamp1 x })
      noisePeriodField_congr noisePeriodField_setReg_other writeCell_noise_eq (fun _ _ _ => rfl) h v w p

theorem writeAddress_comm {a b : Byte} (h : a ≠ b) (v w : Byte) (p : Psg) :
    writeAddress b w (writeAddress a v p) = writeAddress a v (writeAddress b w p) := by
  by_cases ha : a.toNat < 16
  · by_cases hb : b.toNat < 16
    · simp only [writeAddress_legal ha, writeAddress_legal hb]
      exact writeCell_comm (fun e => h (BitVec.eq_of_toNat_eq (Fin.mk.inj e))) v w p
    · simp only [writeAddress_illegal hb]
  · simp only [writeAddress_illegal ha]

theorem runOps_writes (a b v w : Byte) (s : State) :
    ∃ t, runOps [.writeReg a v, .writeReg b w] s = .next t ∧ t.psg = writeAddress b w (writeAddress a v s.psg) := by
  obtain ⟨r, hr⟩ := exec_writeReg_address a v s
  obtain ⟨r', hr'⟩ := exec_writeReg_address b w { s with psg := writeAddress a v s.psg, reply := r }
  exact ⟨{ s with psg := writeAddress b w (writeAddress a v s.psg), reply := r' }, by simp only [runOps, hr, hr'], rfl⟩

/-- Settles O14: element by element a write links what its register belongs to, and two writes reach the same links. -/
theorem writesToDifferentAddressesCommute : Obligations.WritesToDifferentAddressesCommute := by
  intro s a b v w h
  obtain ⟨t, ht, hpt⟩ := runOps_writes a b v w s
  obtain ⟨u, hu, hpu⟩ := runOps_writes b a w v s
  exact ⟨t, u, ht, hu, by rw [hpt, hpu, writeAddress_comm h]⟩

end Sys2Proof.Machine
end

