-- ==== Sys2Proof/Proofs/Cycles.lean ====
section
/-! The prescaler and TICK (spec/46_prescale_tick.md): the updates that a number of master cycles performs. -/

namespace Sys2Proof.Machine

/-! ### Master cycles, one after the other -/

/-- What one master cycle leaves as it was, any number leaves as it was. -/
theorem runCycles_frame {α : Type} {f : Psg → α} (h : ∀ p, f (prescaleCycle p) = f p) (n : Nat) (p : Psg) :
    f (runCycles n p) = f p := by
  induction n generalizing p with
  | zero => rfl
  | succ n ih => rw [runCycles_succ, ih, h]

@[simp] theorem runCycles_tone_period (n : Nat) (p : Psg) (c : Channel) :
    ((runCycles n p).tone c).period = (p.tone c).period := by
  refine runCycles_frame (f := fun p => (p.tone c).period) (fun p => ?_) n p
  rw [prescaleCycle_tone]
  split
  · exact Tone.update_period _
  · rfl

@[simp] theorem runCycles_noise_period (n : Nat) (p : Psg) : (runCycles n p).noise.period = p.noise.period := by
  refine runCycles_frame (f := fun p => p.noise.period) (fun p => ?_) n p
  rw [prescaleCycle_noise]
  split
  · exact Noise.update_period _
  · rfl

@[simp] theorem runCycles_env_period (n : Nat) (p : Psg) : (runCycles n p).env.period = p.env.period := by
  refine runCycles_frame (f := fun p => p.env.period) (fun p => ?_) n p
  rw [prescaleCycle_env]
  split
  · exact Env.update_period _ _
  · rfl

@[simp] theorem runCycles_env_shape (n : Nat) (p : Psg) : (runCycles n p).env.shape = p.env.shape := by
  refine runCycles_frame (f := fun p => p.env.shape) (fun p => ?_) n p
  rw [prescaleCycle_env]
  split
  · exact Env.update_shape _ _
  · rfl

theorem runCycles_mclk (n : Nat) (p : Psg) : (runCycles n p).mclk.toNat = (p.mclk.toNat + n) % 2 ^ 64 := by
  induction n generalizing p with
  | zero => exact (Nat.mod_eq_of_lt p.mclk.isLt).symm
  | succ n ih =>
    rw [runCycles_succ, ih, prescaleCycle_mclk, BitVec.toNat_add, Nat.mod_add_mod]
    congr 1
    simp only [BitVec.ofNat_eq_ofNat, BitVec.toNat_ofNat]
    omega

theorem runCycles_add (a b : Nat) (p : Psg) : runCycles (a + b) p = runCycles b (runCycles a p) := by
  rw [runCycles_eq_iterate, runCycles_eq_iterate, runCycles_eq_iterate, Nat.add_comm, Function.iterate_add_apply]

/-! ### The number of updates (R253, R254) -/

/-- The multiples of `d` above `m` up to `m + n`: the updates that `n` master cycles from count `m` perform. -/
def updatesBetween (d m n : Nat) : Nat := (m + n) / d - m / d

/-- A wrap of the count takes whole multiples of `d` from it. -/
theorem wrapped_add_div {d : Nat} (hd : d ∣ 2 ^ 64) (m n : Nat) :
    (m % 2 ^ 64 + n) / d + 2 ^ 64 / d * (m / 2 ^ 64) = (m + n) / d := by
  have hpos : 0 < d := Nat.pos_of_dvd_of_pos hd (by decide)
  rw [← Nat.add_mul_div_left _ _ hpos, ← Nat.mul_assoc, Nat.mul_div_cancel' hd]
  congr 1
  have hsplit := Nat.mod_add_div m (2 ^ 64)
  omega

/-- The first cycle's update, then those from the count after it; `d` divides 2^64, so the wrap loses none. -/
theorem updatesBetween_succ {d : Nat} (hd : d ∣ 2 ^ 64) (m n : Nat) :
    updatesBetween d m (n + 1) =
      updatesBetween d ((m + 1) % 2 ^ 64) n + if (m + 1) % 2 ^ 64 % d = 0 then 1 else 0 := by
  have hfirst : (m + 1) / d = m / d + if (m + 1) % d = 0 then 1 else 0 := by
    simp only [Nat.succ_div, Nat.dvd_iff_mod_eq_zero]
  have hstart : (m + 1) % 2 ^ 64 / d + 2 ^ 64 / d * ((m + 1) / 2 ^ 64) = (m + 1) / d := wrapped_add_div hd (m + 1) 0
  have hend := wrapped_add_div hd (m + 1) n
  have hmono : (m + 1) / d ≤ (m + 1 + n) / d := Nat.div_le_div_right (Nat.le_add_right _ _)
  rw [Nat.mod_mod_of_dvd _ hd, updatesBetween, updatesBetween, Nat.add_comm n 1, ← Nat.add_assoc]
  omega

/-- An element that a master cycle updates when the new count is divisible by `d`. -/
theorem runCycles_updates {α : Type} {element : Psg → α} {update : α → α} {d : Nat} (hd : d ∣ 2 ^ 64)
    (h : ∀ p, element (prescaleCycle p) = if nextCycle p.mclk % d = 0 then update (element p) else element p)
    (n : Nat) (p : Psg) : element (runCycles n p) = update^[updatesBetween d p.mclk.toNat n] (element p) := by
  induction n generalizing p with
  | zero => rw [updatesBetween, Nat.add_zero, Nat.sub_self]; rfl
  | succ n ih =>
    have hcount : (prescaleCycle p).mclk.toNat = (p.mclk.toNat + 1) % 2 ^ 64 := by
      rw [prescaleCycle_mclk, ← nextCycle_eq, nextCycle]
    rw [runCycles_succ, ih, h, nextCycle_eq, updatesBetween_succ hd, hcount]
    split
    · rw [Function.iterate_succ_apply]
    · rfl

section
variable (n : Nat) (p : Psg)

theorem runCycles_tone (c : Channel) :
    (runCycles n p).tone c = Tone.update^[updatesBetween 16 p.mclk.toNat n] (p.tone c) :=
  runCycles_updates (element := fun p => p.tone c) (by decide) (fun p => prescaleCycle_tone p c) n p

theorem runCycles_noise : (runCycles n p).noise = Noise.update^[updatesBetween 16 p.mclk.toNat n] p.noise :=
  runCycles_updates (by decide) prescaleCycle_noise n p

theorem runCycles_env :
    (runCycles n p).env = (Env.update envHoldAltFlip)^[updatesBetween 256 p.mclk.toNat n] p.env :=
  runCycles_updates (by decide) prescaleCycle_env n p

end

/-! ### The operations -/

theorem exec_tick (n : BitVec 64) (s : State) :
    exec (.tick (.unsigned n)) s = .next { s with psg := runCycles n.toNat s.psg, reply := .cycles n } := rfl

/-- Settles O36: the laws of the prescaler, element by element. -/
theorem prescaleCycleRule : Obligations.PrescaleCycleRule := by
  intro s
  have hnext := nextCycle_eq s.psg.mclk
  refine ⟨_, State.complete_eq s (prescaleCycle s.psg) .done, rfl, rfl, prescaleCycle_regs _, ?_, fun c => ?_, ?_, ?_⟩
  · rw [← hnext, nextCycle, prescaleCycle_mclk]
  · rw [prescaleCycle_tone, hnext]
  · rw [prescaleCycle_noise, hnext]
  · rw [prescaleCycle_env, hnext]
    rfl

/-- Settles O38: the wrapper's test, and a count that is not negative is its unsigned bits. -/
theorem signedTickRejectsNegativeCounts : Obligations.SignedTickRejectsNegativeCounts := by
  intro s n
  refine ⟨fun h => if_pos h, fun h => ?_⟩
  have hcount : n.toInt.toNat = n.toNat := by
    rw [BitVec.toInt_eq_toNat_of_lt (BitVec.toInt_pos_iff.mp h), Int.toNat_natCast]
  rw [hcount, ← runCycles_eq_iterate]
  exact if_neg (Int.not_lt.mpr h)

/-- Settles O39: each element is updated as often as its divider divides a count on the way. -/
theorem tickCountsItsUpdates : Obligations.TickCountsItsUpdates := fun s n =>
  ⟨_, exec_tick n s, runCycles_mclk n.toNat s.psg, runCycles_regs n.toNat s.psg, runCycles_tone n.toNat s.psg,
    runCycles_noise n.toNat s.psg, runCycles_env n.toNat s.psg⟩

/-- Settles O40: the cycles of the sum are the cycles of both, and the sum does not wrap. -/
theorem tickIsAdditive : Obligations.TickIsAdditive := by
  intro s a b h
  have hsum : (a + b).toNat = a.toNat + b.toNat := BitVec.toNat_add_of_lt h
  refine ⟨_, _, rfl, exec_tick (a + b) s, ?_⟩
  rw [hsum, runCycles_add]

end Sys2Proof.Machine
end

