-- ==== Sys2Proof/Proofs/Lfsr.lean ====
section
/-! The shift register (spec/42_noise.md): LFSR_STEP is linear over xor, so 17 squarings of its columns give its
2^17-th iterate, which is LFSR_STEP again; 2^17 - 1 is prime, so every non-zero value has the full period. -/

namespace Sys2Proof.Machine

/-! ### LFSR_STEP is injective, fixes 0 alone, and is linear -/

theorem lfsrStep_zero : lfsrStep 0 = 0 := rfl

theorem lfsrStep_injective : Function.Injective lfsrStep := by
  intro x y h
  have hshift : ∀ i, i < 16 → x.getLsbD (i + 1) = y.getLsbD (i + 1) := by
    intro i hi
    rw [← lfsrStep_getLsbD_of_lt x hi, h, lfsrStep_getLsbD_of_lt y hi]
  have htaps : (x.getLsbD 0 ^^ x.getLsbD 3) = (y.getLsbD 0 ^^ y.getLsbD 3) := by
    rw [← lfsrStep_getLsbD_sixteen, h, lfsrStep_getLsbD_sixteen]
  apply BitVec.eq_of_getLsbD_eq
  intro i hi
  cases i with
  | zero => rwa [hshift 2 (by decide), Bool.xor_left_inj] at htaps
  | succ i => exact hshift i (by omega)

theorem lfsrStep_eq_zero_iff {x : BitVec 17} : lfsrStep x = 0 ↔ x = 0 :=
  lfsrStep_injective.eq_iff' lfsrStep_zero

/-- In a fixed value all bits agree, and the new one is the xor of two of them. -/
theorem eq_zero_of_lfsrStep_eq {x : BitVec 17} (h : lfsrStep x = x) : x = 0 := by
  have htop : x.getLsbD 16 = (x.getLsbD 0 ^^ x.getLsbD 3) := by
    rw [← lfsrStep_getLsbD_sixteen, h]
  have hagree : ∀ i, i ≤ 16 → x.getLsbD i = x.getLsbD 0 := by
    intro i hi
    induction i with
    | zero => rfl
    | succ i ih => rw [← lfsrStep_getLsbD_of_lt x hi, h, ih (by omega)]
  rw [hagree 16 le_rfl, hagree 3 (by decide), Bool.xor_self] at htop
  apply BitVec.eq_of_getLsbD_eq
  intro i hi
  rw [hagree i (by omega), htop]
  exact BitVec.getLsbD_zero.symm

/-- A map on the register's values that is linear over xor. -/
def XorLinear (f : BitVec 17 → BitVec 17) : Prop := ∀ x y, f (x ^^^ y) = f x ^^^ f y

theorem XorLinear.map_zero {f : BitVec 17 → BitVec 17} (h : XorLinear f) : f 0 = 0 := by
  simpa using h 0 0

theorem XorLinear.iterate {f : BitVec 17 → BitVec 17} (h : XorLinear f) (n : Nat) : XorLinear f^[n] := by
  induction n with
  | zero => exact fun _ _ => rfl
  | succ n ih =>
    intro x y
    rw [Function.iterate_succ_apply, h, ih, ← Function.iterate_succ_apply, ← Function.iterate_succ_apply]

theorem lfsrStep_xorLinear : XorLinear lfsrStep := by
  intro x y
  apply BitVec.eq_of_getLsbD_eq
  intro i hi
  obtain hi | rfl : i < 16 ∨ i = 16 := by omega
  · simp only [BitVec.getLsbD_xor, lfsrStep_getLsbD_of_lt _ hi]
  · simp only [BitVec.getLsbD_xor, lfsrStep_getLsbD_sixteen]
    rw [Bool.xor_assoc, Bool.xor_left_comm (y.getLsbD 0), ← Bool.xor_assoc]

/-! ### A linear map by its columns -/

/-- The xor of the columns that the bits of `x` from bit `i` on select. -/
def applyColumns (x : BitVec 17) : Nat → List (BitVec 17) → BitVec 17
  | _, [] => 0
  | i, c :: cs => (if x.getLsbD i then c else 0) ^^^ applyColumns x (i + 1) cs

/-- The columns of the identity. -/
def unitColumns : List (BitVec 17) := (List.range' 0 17).map (BitVec.twoPow 17)

theorem applyColumns_map {f : BitVec 17 → BitVec 17} (hf : XorLinear f) (x : BitVec 17) (i : Nat)
    (cs : List (BitVec 17)) : applyColumns x i (cs.map f) = f (applyColumns x i cs) := by
  induction cs generalizing i with
  | nil => exact hf.map_zero.symm
  | cons c cs ih =>
    simp only [List.map_cons, applyColumns, ih, hf _ _]
    split
    · rfl
    · rw [hf.map_zero]

/-- Column `i` of the identity carries bit `i` alone. -/
theorem unitColumn_getLsbD (x : BitVec 17) (i j : Nat) (hj : j < 17) :
    (if x.getLsbD i then BitVec.twoPow 17 i else 0).getLsbD j = (decide (i = j) && x.getLsbD j) := by
  by_cases hij : i = j
  · subst hij
    cases x.getLsbD i <;> simp [hj]
  · split <;> simp [BitVec.getLsbD_twoPow, hij]

theorem applyColumns_units_getLsbD (x : BitVec 17) (i n j : Nat) (hj : j < 17) :
    (applyColumns x i ((List.range' i n).map (BitVec.twoPow 17))).getLsbD j
      = (decide (i ≤ j ∧ j < i + n) && x.getLsbD j) := by
  induction n generalizing i with
  | zero =>
    have hempty : ¬ (i ≤ j ∧ j < i + 0) := by omega
    rw [decide_eq_false hempty, Bool.false_and]
    exact BitVec.getLsbD_zero
  | succ n ih =>
    rw [List.range'_succ, List.map_cons, applyColumns, BitVec.getLsbD_xor, unitColumn_getLsbD x i j hj, ih]
    obtain rfl | hij := eq_or_ne i j
    · simp
    · have hrest : (i + 1 ≤ j ∧ j < i + 1 + n) ↔ (i ≤ j ∧ j < i + (n + 1)) := by omega
      rw [decide_eq_false hij, Bool.false_and, Bool.false_xor]
      simp only [hrest]

theorem applyColumns_units (x : BitVec 17) : applyColumns x 0 unitColumns = x := by
  apply BitVec.eq_of_getLsbD_eq
  intro j hj
  rw [unitColumns, applyColumns_units_getLsbD x 0 17 j hj]
  simp [hj]

/-- The columns of the 2^j-th iterate of LFSR_STEP: each is the square of the one before it. -/
def lfsrColumns : Nat → List (BitVec 17)
  | 0 => unitColumns.map lfsrStep
  | j + 1 => (lfsrColumns j).map fun c => applyColumns c 0 (lfsrColumns j)

theorem lfsrStep_iterate_two_pow (j : Nat) (x : BitVec 17) :
    lfsrStep^[2 ^ j] x = applyColumns x 0 (lfsrColumns j) := by
  induction j generalizing x with
  | zero => exact (applyColumns_units x ▸ applyColumns_map lfsrStep_xorLinear x 0 unitColumns).symm
  | succ j ih =>
    have hsquare : lfsrColumns (j + 1) = (lfsrColumns j).map lfsrStep^[2 ^ j] :=
      List.map_congr_left fun c _ => (ih c).symm
    rw [hsquare, applyColumns_map (lfsrStep_xorLinear.iterate _), ← ih, ← Function.iterate_add_apply, ← Nat.two_mul,
      Nat.pow_succ']

theorem lfsrColumns_seventeen : lfsrColumns 17 = lfsrColumns 0 := by decide +kernel

/-! ### The period (R167) -/

theorem lfsrStep_iterate_period (x : BitVec 17) : lfsrStep^[131071] x = x := by
  have hpow : 131071 + 1 = 2 ^ 17 := by norm_num
  apply lfsrStep_injective
  rw [← Function.iterate_succ_apply' lfsrStep, Nat.succ_eq_add_one, hpow, lfsrStep_iterate_two_pow,
    lfsrColumns_seventeen, ← lfsrStep_iterate_two_pow, Nat.pow_zero, Function.iterate_one]

/-- The only fixed value is 0, and 131071 is prime. -/
theorem lfsrStep_minimalPeriod {x : BitVec 17} (hx : x ≠ 0) : Function.minimalPeriod lfsrStep x = 131071 := by
  have hprime : Nat.Prime 131071 := by norm_num
  have hdvd : Function.minimalPeriod lfsrStep x ∣ 131071 :=
    Function.IsPeriodicPt.minimalPeriod_dvd (lfsrStep_iterate_period x)
  refine ((Nat.dvd_prime hprime).mp hdvd).resolve_left fun h => hx ?_
  exact eq_zero_of_lfsrStep_eq (Function.minimalPeriod_eq_one_iff_isFixedPt.mp h)

theorem lfsrStep_iterate_ne_zero {x : BitVec 17} (hx : x ≠ 0) (k : Nat) : lfsrStep^[k] x ≠ 0 := by
  induction k with
  | zero => exact hx
  | succ k ih => rwa [Function.iterate_succ_apply', Ne, lfsrStep_eq_zero_iff]

/-- The first 131071 iterates of a value that is not 0. -/
def lfsrCycle {x : BitVec 17} (hx : x ≠ 0) (k : Fin 131071) : { y : BitVec 17 // y ≠ 0 } :=
  ⟨lfsrStep^[k] x, lfsrStep_iterate_ne_zero hx k⟩

theorem card_ne_zero : Fintype.card { x : BitVec 17 // x ≠ 0 } = 131071 := by
  rw [Fintype.card_subtype_compl, Fintype.card_subtype_eq, ← FinEnum.card_eq_fintypeCard, FinEnum.card_bitVec]
  norm_num

/-- The 131071 values of one cycle are distinct and not 0, so they are all the values that are not 0. -/
theorem exists_lfsrStep_iterate_eq {x y : BitVec 17} (hx : x ≠ 0) (hy : y ≠ 0) :
    ∃ k, k < 131071 ∧ lfsrStep^[k] x = y := by
  have hinj : (lfsrCycle hx).Injective := by
    intro j k h
    have hperiod := lfsrStep_minimalPeriod hx
    refine Fin.ext (Function.iterate_injOn_Iio_minimalPeriod (f := lfsrStep) (x := x) ?_ ?_ (congrArg Subtype.val h))
    · rw [hperiod]; exact j.isLt
    · rw [hperiod]; exact k.isLt
  have hsurj := ((Fintype.bijective_iff_injective_and_card (lfsrCycle hx)).mpr
    ⟨hinj, by rw [Fintype.card_fin, card_ne_zero]⟩).2
  obtain ⟨k, hk⟩ := hsurj ⟨y, hy⟩
  exact ⟨k, k.isLt, congrArg Subtype.val hk⟩

/-- Settles O23: the period of 0x1FFFF is that of every value but 0, and its cycle reaches them all. -/
theorem lfsrRunsThroughAllNonZeroValues : Obligations.LfsrRunsThroughAllNonZeroValues := by
  have hstart : (0x1FFFF : BitVec 17) ≠ 0 := by decide
  refine ⟨lfsrStep_zero, Finite.injective_iff_bijective.mp lfsrStep_injective, lfsrStep_iterate_period _,
    fun k hpos hlt => ?_, fun x hx => exists_lfsrStep_iterate_eq hstart hx⟩
  exact Function.not_isPeriodicPt_of_pos_of_lt_minimalPeriod hpos.ne' (by rwa [lfsrStep_minimalPeriod hstart])

/-! ### Lock-up (R168, R331) -/

/-- Settles O22: a noise update keeps the register or steps it, and a step of the register leaves 0 only from 0. -/
theorem lfsrLockUpIsClosed : Obligations.LfsrLockUpIsClosed := by
  intro i s t hi hr ht
  refine (exec_effect ht).noise_invariant (P := fun n => n.lfsr = 0 ↔ s.psg.noise.lfsr = 0)
    (fun _ _ h => h) (fun n h => ?_) hi hr Iff.rfl
  by_cases hc : n.counter.toNat ≤ 1
  · rw [Noise.update_fires hc]
    exact lfsrStep_eq_zero_iff.trans h
  · rw [Noise.update_counts hc]
    exact h

end Sys2Proof.Machine
end

