-- ==== Sys2Proof/Proofs/Invariants.lean ====
section
/-! The invariants of spec/10_state.md R40, and who writes what (R41): case analyses of `Effect`. -/

namespace Sys2Proof.Machine

/-! ### No period is 0 (R40 (a)) -/

section
variable {p : Psg}

theorem Psg.periodsPositive_iff :
    p.PeriodsPositive ↔ (∀ c, (p.tone c).period ≠ 0) ∧ p.noise.period ≠ 0 ∧ p.env.period ≠ 0 := by
  constructor
  · intro h
    have htone := h.tone
    obtain ⟨-, -, -, hnoise, henv⟩ := h
    exact ⟨htone, hnoise, henv⟩
  · rintro ⟨htone, hnoise, henv⟩
    exact ⟨htone .A, htone .B, htone .C, hnoise, henv⟩

theorem Psg.PeriodsPositive.setTone (h : p.PeriodsPositive) {c : Channel} {t : Tone} (ht : t.period ≠ 0) :
    (p.setTone c t).PeriodsPositive := by
  obtain ⟨htone, hnoise, henv⟩ := Psg.periodsPositive_iff.mp h
  rw [Psg.periodsPositive_iff, Psg.setTone_noise, Psg.setTone_env]
  refine ⟨fun d => ?_, hnoise, henv⟩
  rw [Psg.setTone_tone]
  split
  · exact ht
  · exact htone d

theorem Psg.PeriodsPositive.setNoise (h : p.PeriodsPositive) {n : Noise} (hn : n.period ≠ 0) :
    { p with noise := n }.PeriodsPositive := by
  obtain ⟨hA, hB, hC, -, henv⟩ := h
  exact ⟨hA, hB, hC, hn, henv⟩

theorem Psg.PeriodsPositive.setEnv (h : p.PeriodsPositive) {e : Env} (he : e.period ≠ 0) :
    { p with env := e }.PeriodsPositive := by
  obtain ⟨hA, hB, hC, hnoise, -⟩ := h
  exact ⟨hA, hB, hC, hnoise, he⟩

theorem Psg.PeriodsPositive.noise (h : p.PeriodsPositive) : p.noise.period ≠ 0 :=
  (Psg.periodsPositive_iff.mp h).2.1

theorem Psg.PeriodsPositive.env (h : p.PeriodsPositive) : p.env.period ≠ 0 :=
  (Psg.periodsPositive_iff.mp h).2.2

/-- A write keeps each period or recomputes it through the clamp (R22). -/
theorem Psg.PeriodsPositive.writeCell (h : p.PeriodsPositive) (a : Fin 16) (v : Byte) :
    (writeCell a v p).PeriodsPositive := by
  rw [Psg.periodsPositive_iff]
  refine ⟨fun c => ?_, ?_, ?_⟩
  · rw [writeCell_tone]
    split
    · exact clamp1_ne_zero (by decide) _
    · exact h.tone c
  · rw [writeCell_noise_eq]
    split
    · exact clamp1_ne_zero (by decide) _
    · exact h.noise
  · rw [writeCell_env]
    split_ifs
    · exact clamp1_ne_zero (by decide) _
    · exact h.env
    · exact h.env

theorem Psg.PeriodsPositive.runCycles (h : p.PeriodsPositive) (n : Nat) : (runCycles n p).PeriodsPositive := by
  rw [Psg.periodsPositive_iff, runCycles_noise_period, runCycles_env_period]
  refine ⟨fun c => ?_, h.noise, h.env⟩
  rw [runCycles_tone_period]
  exact h.tone c

end

theorem Psg.atReset_periodsPositive : Psg.atReset.PeriodsPositive := by
  refine ⟨?_, ?_, ?_, ?_, ?_⟩ <;> decide

/-- A field whose range begins at 1 (R274) gives bits that are not 0. -/
theorem fieldBits_ne_zero {w : Nat} {m : FieldMap} {f : Field} {hi : Int} (h : FieldMap.has m f 1 hi)
    (hhi : hi < 2 ^ w) : fieldBits w m f ≠ 0 := by
  intro hzero
  have hbits := fieldOf_eq_fieldBits h (by decide) hhi
  obtain ⟨v, hv, hpos, -⟩ := h
  have hval : (0 : Int) = v := by simpa [hzero, hv] using hbits.symm
  omega

theorem importPsg_periodsPositive {m : FieldMap} (h : FieldMap.Importable m) : (importPsg m).PeriodsPositive := by
  obtain ⟨-, htone, -, -, -, hnoise, -, -, henv, -⟩ := h
  rw [Psg.periodsPositive_iff]
  refine ⟨fun c => ?_, fieldBits_ne_zero hnoise (by decide), fieldBits_ne_zero henv (by decide)⟩
  rw [importPsg_tone]
  exact fieldBits_ne_zero (htone c) (by decide)

theorem Effect.periodsPositive {i : Instr} {p q : Psg} (e : Effect i p q) (h : p.PeriodsPositive) :
    q.PeriodsPositive := by
  cases e with
  | unchanged => exact h
  | store | storeShape => exact h.writeCell _ _
  | storePair => exact (h.writeCell _ _).writeCell _ _
  | cycles => exact h.runCycles _
  | toneSetPeriod => exact h.setTone (clamp1_ne_zero (by decide) _)
  | @toneUpdate c => exact h.setTone (by rw [Tone.update_period]; exact h.tone c)
  | toneReset => exact h.setTone (by decide)
  | noiseSetPeriod => exact h.setNoise (clamp1_ne_zero (by decide) _)
  | noiseUpdate => exact h.setNoise (by rw [Noise.update_period]; exact h.noise)
  | noiseReset => exact h.setNoise (by decide)
  | envSetPeriod => exact h.setEnv (clamp1_ne_zero (by decide) _)
  | envSetShape => exact h.setEnv h.env
  | envUpdate => exact h.setEnv (by rw [Env.update_period]; exact h.env)
  | envStep => exact h.setEnv (by rw [Env.step_period]; exact h.env)
  | envReset => exact h.setEnv (by decide)
  | reset => exact Psg.atReset_periodsPositive
  | importState hm => exact importPsg_periodsPositive (firstBadField_eq_none_iff.mp hm)

/-- Settles O52: a step runs an operation or idles, and every effect of an operation keeps the periods positive. -/
theorem stepKeepsPeriodsPositive : Obligations.StepKeepsPeriodsPositive := by
  intro s t h hstep
  obtain rfl | ⟨i, rest, hexec⟩ := step_cases hstep
  · exact h
  · exact (exec_effect hexec).periodsPositive h

/-! ### Periods and shape are those the registers give (R40 (e)) -/

/-- The first four parts of R40 (e), with the model's fields. -/
structure Psg.Linked (p : Psg) : Prop where
  tone : ∀ c, (p.tone c).period = clamp1 (tonePeriodField p c)
  noise : p.noise.period = clamp1 (noisePeriodField p)
  env : p.env.period = clamp1 (envPeriodField p)
  shape : p.env.shape = shapeField p

theorem lowNibble_toNat (v : Byte) : (lowNibble v).toNat = (v.toNat &&& 0xF) := by
  revert v; decide +kernel

section
variable (p : Psg)

theorem tonePeriodField_toNat (c : Channel) :
    (tonePeriodField p c).toNat = (((p.cell (2 * c.num + 1) &&& 0xF) <<< 8) ||| p.cell (2 * c.num)) := by
  rw [tonePeriodField, BitVec.toNat_append, lowNibble_toNat, ← Psg.cell_eq, ← Psg.cell_eq, fineReg_val, coarseReg_val]

theorem noisePeriodField_toNat : (noisePeriodField p).toNat = (p.cell 6 &&& 0x1F) := by
  have hmask : ∀ v : Byte, (v.extractLsb' 0 5).toNat = (v.toNat &&& 0x1F) := by decide +kernel
  rw [noisePeriodField, hmask, ← Psg.cell_eq]
  rfl

theorem envPeriodField_toNat : (envPeriodField p).toNat = ((p.cell 12 <<< 8) ||| p.cell 11) := by
  rw [envPeriodField, BitVec.toNat_append, ← Psg.cell_eq, ← Psg.cell_eq]
  rfl

theorem shapeField_toNat : (shapeField p).toNat = (p.cell 13 &&& 0xF) := by
  rw [shapeField, lowNibble_toNat, ← Psg.cell_eq]
  rfl

theorem Psg.consistent_iff : p.Consistent ↔ p.Linked ∧ p.noise.lfsr ≠ 0 := by
  have hlinked : p.Linked ↔ (∀ c, (p.tone c).period = clamp1 (tonePeriodField p c)) ∧
      p.noise.period = clamp1 (noisePeriodField p) ∧ p.env.period = clamp1 (envPeriodField p) ∧
      p.env.shape = shapeField p :=
    ⟨fun ⟨ht, hn, he, hs⟩ => ⟨ht, hn, he, hs⟩, fun ⟨ht, hn, he, hs⟩ => ⟨ht, hn, he, hs⟩⟩
  rw [hlinked, Psg.Consistent]
  simp only [← BitVec.toNat_inj (n := 12), ← BitVec.toNat_inj (n := 5), ← BitVec.toNat_inj (n := 16),
    ← BitVec.toNat_inj (n := 4), clamp1_toNat (show 0 < 12 by decide), clamp1_toNat (show 0 < 5 by decide),
    clamp1_toNat (show 0 < 16 by decide), tonePeriodField_toNat, noisePeriodField_toNat, envPeriodField_toNat,
    shapeField_toNat, and_assoc]

end

section
variable {p q : Psg}

/-- What keeps the registers, the periods and the shape keeps the links. -/
theorem Psg.Linked.of_eq (h : p.Linked) (hregs : q.regs = p.regs) (htone : ∀ c, (q.tone c).period = (p.tone c).period)
    (hnoise : q.noise.period = p.noise.period) (henv : q.env.period = p.env.period)
    (hshape : q.env.shape = p.env.shape) : q.Linked where
  tone c := by rw [htone, h.tone, tonePeriodField_congr hregs]
  noise := by rw [hnoise, h.noise, noisePeriodField_congr hregs]
  env := by rw [henv, h.env, envPeriodField_congr hregs]
  shape := by rw [hshape, h.shape, shapeField_congr hregs]

/-- A write recomputes what its register belongs to and leaves the other registers' fields alone. -/
theorem Psg.Linked.writeCell (h : p.Linked) (a : Fin 16) (v : Byte) : (writeCell a v p).Linked := by
  have hregs := writeCell_regs a v p
  constructor
  case tone =>
    intro c
    rw [writeCell_tone, tonePeriodField_congr hregs]
    split
    · rfl
    · next ha => rw [h.tone, tonePeriodField_setReg_other v p ha]
  case noise =>
    rw [writeCell_noise_eq, noisePeriodField_congr hregs]
    split
    · rfl
    · next ha => rw [h.noise, noisePeriodField_setReg_other v p ha]
  case env =>
    rw [writeCell_env, envPeriodField_congr hregs]
    split_ifs with ha
    · rfl
    · rw [envPeriodField_setReg_other v p ha, ← h.env]
      rfl
    · rw [envPeriodField_setReg_other v p ha, ← h.env]
  case shape =>
    rw [writeCell_env, shapeField_congr hregs]
    split_ifs with ha h13
    · have h13 : a ≠ 13 := by obtain rfl | rfl := ha <;> decide
      rw [shapeField_setReg_other v p h13, ← h.shape]
    · rfl
    · rw [shapeField_setReg_other v p h13, h.shape]

theorem Psg.atReset_linked : Psg.atReset.Linked where
  tone c := by cases c <;> decide
  noise := by decide
  env := by decide
  shape := by decide

theorem Effect.linked {i : Instr} (e : Effect i p q) (hhost : isInternal i = false) (himport : ∀ m, i ≠ .importState m)
    (h : p.Linked) : q.Linked := by
  cases e with
  | unchanged => exact h
  | store | storeShape => exact h.writeCell _ _
  | storePair => exact (h.writeCell _ _).writeCell _ _
  | cycles =>
    exact h.of_eq (runCycles_regs _ _) (fun c => runCycles_tone_period _ _ c) (runCycles_noise_period _ _)
      (runCycles_env_period _ _) (runCycles_env_shape _ _)
  | reset => exact Psg.atReset_linked
  | importState => exact absurd rfl (himport _)
  | toneSetPeriod | toneUpdate | toneReset | noiseSetPeriod | noiseUpdate | noiseReset
  | envSetPeriod | envSetShape | envUpdate | envStep | envReset => cases hhost

end

theorem Psg.atReset_lfsr_ne_zero : Psg.atReset.noise.lfsr ≠ 0 := by decide

theorem exec_lfsr_ne_zero {i : Instr} {s t : State} (hhost : isInternal i = false) (himport : ∀ m, i ≠ .importState m)
    (h : s.psg.noise.lfsr ≠ 0) (ht : exec i s = .next t) : t.psg.noise.lfsr ≠ 0 := by
  by_cases hreset : i = .reset
  · subst hreset
    cases ht
    exact Psg.atReset_lfsr_ne_zero
  · have hall : writesAll i = false := by
      cases i with
      | reset => exact absurd rfl hreset
      | importState m => exact absurd rfl (himport m)
      | _ => rfl
    have hnoise : i ≠ .noiseReset := by
      rintro rfl
      cases hhost
    exact mt (lfsrLockUpIsClosed i s t hall hnoise ht).mp h

/-- Settles O53: the links are kept by every effect of a host operation, and its LFSR is never locked up. -/
theorem hostOperationsKeepConsistency : Obligations.HostOperationsKeepConsistency := by
  intro i s t hhost himport h ht
  obtain ⟨hlinked, hlfsr⟩ := s.psg.consistent_iff.mp h
  exact t.psg.consistent_iff.mpr
    ⟨(exec_effect ht).linked hhost himport hlinked, exec_lfsr_ne_zero hhost himport hlfsr ht⟩

/-- Settles O51: the reset values, with the registers at 0. -/
theorem resetMeetsTheInvariants : Obligations.ResetMeetsTheInvariants :=
  ⟨Psg.atReset_periodsPositive, (Psg.consistent_iff _).mpr ⟨Psg.atReset_linked, Psg.atReset_lfsr_ne_zero⟩⟩

end Sys2Proof.Machine
end

