-- ==== Sys2Proof/Proofs/Frames.lean ====
section
/-! Rules of every operation: what it depends on, who reports an error, and who writes what (spec/10_state.md
section 8, spec/60_exceptions.md). -/

namespace Sys2Proof.Machine

/-! ### What an operation depends on (R276, R290) -/

/-- From the same hardware the operation completes alike whatever the ports hold, and leaves the requests. -/
def DependsOnHardware (op : State → Host.Outcome State Fault Refusal) : Prop :=
  ∀ (p : Psg) (requests requests' : List Byte) (reply reply' : Reply), ∃ q r,
    op ⟨p, requests, reply⟩ = .next ⟨q, requests, r⟩ ∧ op ⟨p, requests', reply'⟩ = .next ⟨q, requests', r⟩

section
variable {op : State → Host.Outcome State Fault Refusal}

theorem DependsOnHardware.of_complete (f : Psg → Psg) (g : Psg → Reply)
    (h : ∀ s, op s = s.complete (f s.psg) (g s.psg)) : DependsOnHardware op :=
  fun p _ _ _ _ => ⟨f p, g p, h _, h _⟩

theorem DependsOnHardware.of_answer (g : Psg → Reply) (h : ∀ s, op s = s.answer (g s.psg)) : DependsOnHardware op :=
  .of_complete id g h

end

theorem execWriteReg_dependsOnHardware (a v : Byte) : DependsOnHardware (execWriteReg a v) := by
  by_cases h : a.toNat < 16
  · exact .of_complete (writeCell ⟨a.toNat, h⟩ v) (fun _ => .done) fun s => by rw [execWriteReg, cellOf_some h]
  · exact .of_answer (fun _ => .error (.eAddr a)) fun s => execWriteReg_of_illegal s v h

theorem execReadReg_dependsOnHardware (a : Byte) : DependsOnHardware (execReadReg a) := by
  by_cases h : a.toNat < 16
  · exact .of_answer (fun p => .byte (p.reg ⟨a.toNat, h⟩)) fun s => by rw [execReadReg, cellOf_some h]; rfl
  · exact .of_answer (fun _ => .error (.eAddr a)) fun s => execReadReg_of_illegal s h

theorem execTick_dependsOnHardware (n : CycleCount) : DependsOnHardware (execTick n) := by
  cases n with
  | unsigned n => exact .of_complete (runCycles n.toNat) (fun _ => .cycles n) fun _ => rfl
  | signed n =>
    by_cases h : n.toInt < 0
    · exact .of_answer (fun _ => .error (.eArg n.toInt)) fun _ => if_pos h
    · exact .of_complete (runCycles n.toNat) (fun _ => .cycles n) fun _ => if_neg h

theorem execImportState_dependsOnHardware (m : FieldMap) : DependsOnHardware (execImportState m) := by
  cases h : firstBadField m with
  | some f => exact .of_answer (fun _ => .error (.eImport f)) (execImportState_of_bad h)
  | none =>
    exact .of_complete (fun _ => importPsg m) (fun _ => .done)
      (execImportState_of_importable (firstBadField_eq_none_iff.mp h))

/-- Four operations test an operand; every other one is a function of the hardware as it stands. -/
theorem exec_dependsOnHardware (i : Instr) : DependsOnHardware (exec i) :=
  match i with
  | .writeReg a v => execWriteReg_dependsOnHardware a v
  | .readReg a => execReadReg_dependsOnHardware a
  | .tick n => execTick_dependsOnHardware n
  | .importState m => execImportState_dependsOnHardware m
  | .writeR0 _ | .writeR1 _ | .writeR2 _ | .writeR3 _ | .writeR4 _ | .writeR5 _ | .writeR6 _ | .writeR7 _
  | .writeR8 _ | .writeR9 _ | .writeR10 _ | .writeR11 _ | .writeR12 _ | .writeR13 _ | .writeR14 _ | .writeR15 _
  | .sample | .reset | .exportState | .getLfsrState
  | .toneSetPeriod _ | .toneUpdate _ | .toneOut _ | .toneReset _
  | .noiseSetPeriod | .noiseUpdate | .lfsrStep _ | .noiseOut | .noiseReset
  | .envSetPeriod | .envSetShape | .envUpdate | .envStep | .envLevel | .envReset
  | .volLookup _ | .mixActive _ | .mixLevel _ | .mixChannel _ | .mixSum | .prescaleCycle
  | .shape0 _ | .shape1 _ | .shape2 _ | .shape3 _ | .shape4 _ | .shape5 _ | .shape6 _ | .shape7 _
  | .shape8 _ | .shape9 _ | .shapeA _ | .shapeB _ | .shapeC _ | .shapeD _ | .shapeE _ | .shapeF _
  | .wtp _ _ | .wep _ | .tu _ | .eu _ => fun _ _ _ _ _ => ⟨_, _, rfl, rfl⟩

/-- Settles O48: two states with the same hardware differ in their ports alone. -/
theorem resultDependsOnHardwareStateOnly : Obligations.ResultDependsOnHardwareStateOnly := by
  intro i s u h
  obtain ⟨p, requests, reply⟩ := s
  obtain ⟨q, requests', reply'⟩ := u
  obtain rfl : p = q := h
  exact exec_dependsOnHardware i p requests requests' reply reply'

theorem exec_completes (i : Instr) (s : State) : ∃ t, exec i s = .next t := by
  obtain ⟨p, r, h, -⟩ := resultDependsOnHardwareStateOnly i s s rfl
  exact ⟨_, h⟩

/-! ### Who reports an error (R290, R295) -/

/-- The operations that can report an error, each with its cause. -/
inductive ErrorCause : Instr → HwError → Prop
  | write {a v : Byte} (h : 15 < a.toNat) : ErrorCause (.writeReg a v) (.eAddr a)
  | read {a : Byte} (h : 15 < a.toNat) : ErrorCause (.readReg a) (.eAddr a)
  | count {n : BitVec 64} (h : n.toInt < 0) : ErrorCause (.tick (.signed n)) (.eArg n.toInt)
  | map {m : FieldMap} {f : Field} (h : ¬ FieldMap.Importable m) : ErrorCause (.importState m) (.eImport f)

/-- The operation succeeds, or it raises an error it has a cause for. -/
def SucceedsOrRaises (i : Instr) (s : State) : Prop :=
  Succeeds (exec i s) ∨ ∃ e, ErrorCause i e ∧ exec i s = s.raise e

theorem writeReg_succeedsOrRaises (a v : Byte) (s : State) : SucceedsOrRaises (.writeReg a v) s := by
  by_cases h : a.toNat < 16
  · exact .inl (execWriteReg_succeeds s v h)
  · exact .inr ⟨.eAddr a, .write (by omega), execWriteReg_of_illegal s v h⟩

theorem readReg_succeedsOrRaises (a : Byte) (s : State) : SucceedsOrRaises (.readReg a) s := by
  by_cases h : a.toNat < 16
  · exact .inl (execReadReg_succeeds s h)
  · exact .inr ⟨.eAddr a, .read (by omega), execReadReg_of_illegal s h⟩

theorem tick_signed_succeedsOrRaises (n : BitVec 64) (s : State) : SucceedsOrRaises (.tick (.signed n)) s := by
  obtain ⟨hneg, hpos⟩ := signedTickRejectsNegativeCounts s n
  by_cases h : n.toInt < 0
  · exact .inr ⟨.eArg n.toInt, .count h, hneg h⟩
  · exact .inl ⟨_, hpos (by omega), nofun⟩

theorem importState_succeedsOrRaises (m : FieldMap) (s : State) : SucceedsOrRaises (.importState m) s := by
  by_cases h : FieldMap.Importable m
  · exact .inl ⟨_, execImportState_of_importable h s, nofun⟩
  · obtain ⟨f, -, hraise, -⟩ := importRejectsTheFirstBadField s m h
    exact .inr ⟨.eImport f, .map h, hraise⟩

/-- Beside the four that raise stand R294's operations and the writes to a cell that exists. -/
theorem exec_succeedsOrRaises (i : Instr) (s : State) : SucceedsOrRaises i s :=
  match i with
  | .writeReg a v => writeReg_succeedsOrRaises a v s
  | .readReg a => readReg_succeedsOrRaises a s
  | .tick (.signed n) => tick_signed_succeedsOrRaises n s
  | .importState m => importState_succeedsOrRaises m s
  | .writeR0 _ | .writeR1 _ | .writeR2 _ | .writeR3 _ | .writeR4 _ | .writeR5 _ | .writeR6 _ | .writeR7 _
  | .writeR8 _ | .writeR9 _ | .writeR10 _ | .writeR11 _ | .writeR12 _ | .writeR13 _ | .writeR14 _ | .writeR15 _
  | .shape0 _ | .shape1 _ | .shape2 _ | .shape3 _ | .shape4 _ | .shape5 _ | .shape6 _ | .shape7 _
  | .shape8 _ | .shape9 _ | .shapeA _ | .shapeB _ | .shapeC _ | .shapeD _ | .shapeE _ | .shapeF _
  | .wtp _ _ | .wep _ | .tu _ | .eu _ => .inl (s.complete_succeeds _ nofun)
  | .sample | .reset | .exportState | .getLfsrState | .tick (.unsigned _)
  | .toneSetPeriod _ | .toneUpdate _ | .toneOut _ | .toneReset _
  | .noiseSetPeriod | .noiseUpdate | .lfsrStep _ | .noiseOut | .noiseReset
  | .envSetPeriod | .envSetShape | .envUpdate | .envStep | .envLevel | .envReset
  | .volLookup _ | .mixActive _ | .mixLevel _ | .mixChannel _ | .mixSum | .prescaleCycle =>
    .inl (theseOperationsCannotFail _ s rfl)

/-- Settles O46: an operation that does not succeed has raised, with a cause of the table of R290. -/
theorem errorsChangeNothing : Obligations.ErrorsChangeNothing := by
  intro i s t e ht hreply
  obtain hsucceeds | ⟨e', hcause, hraise⟩ := exec_succeedsOrRaises i s
  · exact absurd hreply (hsucceeds.reply_ne_error ht e)
  · obtain rfl : { s with reply := .error e' } = t := Host.Outcome.next.inj (hraise.symm.trans ht)
    obtain rfl : e' = e := Reply.error.inj hreply
    refine ⟨rfl, ?_⟩
    cases hcause with
    | write h => exact .inl ⟨_, _, rfl, h, rfl⟩
    | read h => exact .inr (.inl ⟨_, rfl, h, rfl⟩)
    | count h => exact .inr (.inr (.inl ⟨_, rfl, h, rfl⟩))
    | map h => exact .inr (.inr (.inr ⟨_, _, rfl, h, rfl⟩))

/-! ### Who writes what (R41, R65, R234) -/

theorem onlyReads_writes_nothing {i : Instr} (h : onlyReads i = true) : isWrite i = false ∧ runsCycles i = false :=
  match i, h with
  | .readReg _, _ | .sample, _ | .exportState, _ | .getLfsrState, _ | .toneOut _, _ | .noiseOut, _ | .envLevel, _
  | .lfsrStep _, _ | .volLookup _, _ | .mixActive _, _ | .mixLevel _, _ | .mixChannel _, _ | .mixSum, _ => ⟨rfl, rfl⟩

theorem runsCycles_is_no_write {i : Instr} (h : runsCycles i = true) : isWrite i = false :=
  match i, h with
  | .tick _, _ | .tu _, _ | .eu _, _ | .prescaleCycle, _ => rfl

section
variable {i : Instr} {p q : Psg}

theorem Effect.eq_of_onlyReads (e : Effect i p q) (h : onlyReads i = true) : q = p := by
  obtain ⟨hwrite, hcycles⟩ := onlyReads_writes_nothing h
  cases e with
  | unchanged => rfl
  | store hi | storeShape hi | storePair hi => exact absurd (hi.symm.trans hwrite) nofun
  | cycles hi => exact absurd (hi.symm.trans hcycles) nofun
  | _ => cases h

theorem Effect.cycles_of_runsCycles (e : Effect i p q) (h : runsCycles i = true) : ∃ n, q = runCycles n p := by
  have hwrite := runsCycles_is_no_write h
  cases e with
  | unchanged => exact ⟨0, rfl⟩
  | store hi | storeShape hi | storePair hi => exact absurd (hi.symm.trans hwrite) nofun
  | cycles => exact ⟨_, rfl⟩
  | _ => cases h

theorem Effect.regs_of_no_write (e : Effect i p q) (hwrite : isWrite i = false) (hall : writesAll i = false) :
    q.regs = p.regs := by
  cases e with
  | store hi | storeShape hi | storePair hi => exact absurd (hi.symm.trans hwrite) nofun
  | cycles => exact runCycles_regs _ _
  | toneSetPeriod | toneUpdate | toneReset => exact Psg.setTone_regs _ _ _
  | reset | importState => cases hall
  | unchanged | noiseSetPeriod | noiseUpdate | noiseReset
  | envSetPeriod | envSetShape | envUpdate | envStep | envReset => rfl

theorem Effect.mclk_of_no_cycles (e : Effect i p q) (hcycles : runsCycles i = false) (hall : writesAll i = false) :
    q.mclk = p.mclk := by
  cases e with
  | store | storeShape => exact writeCell_mclk _ _ _
  | storePair => rw [writeCell_mclk, writeCell_mclk]
  | cycles hi => exact absurd (hi.symm.trans hcycles) nofun
  | toneSetPeriod | toneUpdate | toneReset => exact Psg.setTone_mclk _ _ _
  | reset | importState => cases hall
  | unchanged | noiseSetPeriod | noiseUpdate | noiseReset
  | envSetPeriod | envSetShape | envUpdate | envStep | envReset => rfl

end

/-- Settles O49: a read has no effect, the cycles keep the periods and the shape, and the register file is the
writes'. -/
theorem whoMutatesWhat : Obligations.WhoMutatesWhat := by
  intro i s t ht
  have e := exec_effect ht
  refine ⟨e.eq_of_onlyReads, fun h => ?_, e.regs_of_no_write⟩
  obtain ⟨n, hn⟩ := e.cycles_of_runsCycles h
  rw [hn]
  exact ⟨runCycles_tone_period n _, runCycles_noise_period n _, runCycles_env_period n _, runCycles_env_shape n _⟩

/-- Settles O50: no other effect writes the clock. -/
theorem onlyMasterCyclesMoveTheClock : Obligations.OnlyMasterCyclesMoveTheClock :=
  fun _ _ _ hcycles hall ht => (exec_effect ht).mclk_of_no_cycles hcycles hall

/-! ### A held envelope (R204, R329) -/

section
variable {P : Env → Prop} (hperiod : ∀ e x, P e → P { e with period := x })
  (hupdate : ∀ e, P e → P (e.update envHoldAltFlip)) (hstep : ∀ e, P e → P (e.step envHoldAltFlip))

include hperiod in
/-- A write to a cell other than R[13] moves at most the period of the envelope. -/
theorem writeCell_env_invariant {a : Fin 16} (ha : a ≠ 13) (v : Byte) {p : Psg} (h : P p.env) :
    P (writeCell a v p).env := by
  rw [writeCell_env, if_neg ha]
  split
  · exact hperiod _ _ h
  · exact h

include hupdate in
theorem runCycles_env_invariant (n : Nat) {p : Psg} (h : P p.env) : P (runCycles n p).env := by
  rw [runCycles_env]
  generalize updatesBetween 256 p.mclk.toNat n = k
  induction k with
  | zero => exact h
  | succ k ih => rw [Function.iterate_succ_apply']; exact hupdate _ ih

include hperiod hupdate hstep in
/-- What a change of the period, an update and a step keep, every operation keeps, but for those that restart or
rewrite the envelope. -/
theorem Effect.env_invariant {i : Instr} {p q : Psg} (e : Effect i p q) (hshape : setsShape i = false)
    (hall : writesAll i = false) (hreset : i ≠ .envReset) (h : P p.env) : P q.env := by
  cases e with
  | store _ ha => exact writeCell_env_invariant hperiod ha _ h
  | storeShape _ hi => exact absurd (hi.symm.trans hshape) nofun
  | storePair _ ha hb => exact writeCell_env_invariant hperiod hb _ (writeCell_env_invariant hperiod ha _ h)
  | cycles => exact runCycles_env_invariant hupdate _ h
  | toneSetPeriod | toneUpdate | toneReset => exact (Psg.setTone_env _ _ _).symm ▸ h
  | envSetPeriod => exact hperiod _ _ h
  | envSetShape => cases hshape
  | envUpdate => exact hupdate _ h
  | envStep => exact hstep _ h
  | envReset => exact absurd rfl hreset
  | reset | importState => cases hall
  | unchanged | noiseSetPeriod | noiseUpdate | noiseReset => exact h

end

/-- The envelope holds at the level and with the direction of `e`. -/
def Env.HeldLike (e f : Env) : Prop := f.holding = true ∧ f.level = e.level ∧ f.attacking = e.attacking

theorem Env.HeldLike.step {e f : Env} (h : e.HeldLike f) (flip : Bool) : e.HeldLike (f.step flip) := by
  rwa [Env.step_holding h.1]

theorem Env.HeldLike.update {e f : Env} (h : e.HeldLike f) (flip : Bool) : e.HeldLike (f.update flip) := by
  by_cases hc : f.counter.toNat ≤ 1
  · rw [Env.update_fires hc]
    exact h.step flip
  · rw [Env.update_counts hc]
    exact h

/-- Settles O29: a held envelope is kept by a change of its period, by its updates and by its steps. -/
theorem holdingEndsOnlyByShapeWrite : Obligations.HoldingEndsOnlyByShapeWrite := by
  intro i s t h hshape hall hreset ht
  exact (exec_effect ht).env_invariant (P := s.psg.env.HeldLike) (fun _ _ h => h) (fun _ h => h.update _)
    (fun _ h => h.step _) hshape hall hreset ⟨h, rfl, rfl⟩

/-! ### Reads, and a write read back (R127, R128) -/

theorem exec_readReg_legal {a : Byte} (h : a.toNat < 16) (s : State) :
    exec (.readReg a) s = .next { s with reply := .byte (s.psg.reg ⟨a.toNat, h⟩) } := by
  have hexec : exec (.readReg a) s = execReadReg a s := rfl
  rw [hexec, execReadReg, cellOf_some h]
  rfl

/-- Settles O12: the cell exists, and the read-back is raw. -/
theorem readRegReturnsStoredByte : Obligations.ReadRegReturnsStoredByte := fun s _ h => exec_readReg_legal h s

theorem runOps_cons {i : Instr} {is : List Instr} {s t : State} (h : exec i s = .next t) :
    runOps (i :: is) s = runOps is t := by
  rw [runOps, h]

theorem keepsRegisters_is_no_write {i : Instr} (h : keepsRegisters i = true) :
    isWrite i = false ∧ writesAll i = false :=
  match i, h with
  | .tick _, _ | .sample, _ | .exportState, _ | .getLfsrState, _ => ⟨rfl, rfl⟩

/-- The operations that R128 allows between a write and a read complete, with the register file as it was. -/
theorem runOps_keepsRegisters {ops : List Instr} (h : ∀ i ∈ ops, keepsRegisters i = true) (tail : List Instr)
    (s : State) : ∃ t, runOps (ops ++ tail) s = runOps tail t ∧ t.psg.regs = s.psg.regs := by
  induction ops generalizing s with
  | nil => exact ⟨s, rfl, rfl⟩
  | cons i ops ih =>
    obtain ⟨t, ht⟩ := exec_completes i s
    obtain ⟨hwrite, hall⟩ := keepsRegisters_is_no_write (h i List.mem_cons_self)
    obtain ⟨u, hu, hregs⟩ := ih (fun j hj => h j (List.mem_cons_of_mem i hj)) t
    exact ⟨u, by rw [List.cons_append, runOps_cons ht, hu],
      hregs.trans ((exec_effect ht).regs_of_no_write hwrite hall)⟩

/-- Settles O13: the cell keeps the byte until the read. -/
theorem writeThenReadReturnsTheByte : Obligations.WriteThenReadReturnsTheByte := by
  intro s a v ops ha hops
  obtain ⟨t, ht, hregs⟩ := runOps_keepsRegisters hops [.readReg a] _
  refine ⟨_, (runOps_cons (exec_writeReg_legal ha v s)).trans (ht.trans (runOps_cons (exec_readReg_legal ha t))), ?_⟩
  have hbyte : t.psg.reg ⟨a.toNat, ha⟩ = (writeCell ⟨a.toNat, ha⟩ v s.psg).reg ⟨a.toNat, ha⟩ := by
    rw [Psg.reg, hregs, Psg.reg]
  rw [hbyte, writeCell_reg, if_pos rfl]

/-! ### RESET -/

theorem Psg.atReset_cell (n : Nat) : Psg.atReset.cell n = 0 := by
  have hbyte : (Vector.replicate 16 (0 : Byte)).toList.getD n 0 = 0 := by
    rw [Vector.toList_replicate, List.getD_eq_getElem?_getD, List.getElem?_getD_replicate_default_eq]
  rw [Psg.cell]
  exact congrArg BitVec.toNat hbyte

/-- Settles O2: RESET gives the state of a new machine, and its registers are 0. -/
theorem resetWritesEveryElement : Obligations.ResetWritesEveryElement :=
  fun s => ⟨exec_reset s, Psg.atReset_cell⟩

end Sys2Proof.Machine
end

