-- ==== Sys2Proof/Proofs/Pseudo.lean ====
section
/-! The pseudo-operations (spec/30_encoding.md section 6) and SAMPLE (spec/47_host_ops.md). -/

namespace Sys2Proof.Machine

/-! ### The two bytes of a period (R103) -/

theorem lowByte_eq {w : Nat} (p : BitVec w) : p.setWidth 8 = BitVec.ofNat 8 (p.toNat &&& 0xFF) := by
  have hmask : (p.toNat &&& 0xFF) = p.toNat % 2 ^ 8 := Nat.and_two_pow_sub_one_eq_mod p.toNat 8
  apply BitVec.eq_of_toNat_eq
  rw [hmask, BitVec.toNat_setWidth, BitVec.toNat_ofNat, Nat.mod_mod]

theorem highByte_eq {w : Nat} (p : BitVec w) : (p >>> 8).setWidth 8 = BitVec.ofNat 8 (p.toNat >>> 8) := by
  apply BitVec.eq_of_toNat_eq
  rw [BitVec.toNat_setWidth, BitVec.toNat_ofNat, BitVec.toNat_ushiftRight]

theorem runOps_two_writes {a b : Byte} (ha : a.toNat < 16) (hb : b.toNat < 16) (v w : Byte) (s : State) :
    runOps [.writeReg a v, .writeReg b w] s =
      s.complete (writeCell ⟨b.toNat, hb⟩ w (writeCell ⟨a.toNat, ha⟩ v s.psg)) .done := by
  rw [runOps_cons (exec_writeReg_legal ha v s), runOps_cons (exec_writeReg_legal hb w _)]
  rfl

/-- WTP c, p is `W 2c, p & 0xFF` and `W 2c+1, p >> 8`. -/
theorem execWtp_eq_runOps (c : Channel) (p : BitVec 12) (s : State) :
    execWtp c p s = runOps [.writeReg (BitVec.ofNat 8 (2 * c.num)) (BitVec.ofNat 8 (p.toNat &&& 0xFF)),
      .writeReg (BitVec.ofNat 8 (2 * c.num + 1)) (BitVec.ofNat 8 (p.toNat >>> 8))] s := by
  rw [execWtp, highByte_eq, lowByte_eq]
  symm
  cases c <;> exact runOps_two_writes (by decide) (by decide) _ _ s

/-- WEP p is `W 11, p & 0xFF` and `W 12, p >> 8`. -/
theorem execWep_eq_runOps (p : BitVec 16) (s : State) :
    execWep p s =
      runOps [.writeReg 11 (BitVec.ofNat 8 (p.toNat &&& 0xFF)), .writeReg 12 (BitVec.ofNat 8 (p.toNat >>> 8))] s := by
  rw [execWep, highByte_eq, lowByte_eq]
  symm
  exact runOps_two_writes (by decide) (by decide) _ _ s

/-- A count below 2^64 is TICK's operand. -/
theorem exec_tick_ofNat {n : Nat} (h : n < 2 ^ 64) (s : State) :
    exec (.tick (.unsigned (BitVec.ofNat 64 n))) s =
      .next { s with psg := runCycles n s.psg, reply := .cycles (BitVec.ofNat 64 n) } := by
  rw [exec_tick, BitVec.toNat_ofNat, Nat.mod_eq_of_lt h]

/-- Settles O45: the operands' bytes are those of the writes, and the counts fit TICK's operand. -/
theorem pseudoOperationsAreTheirExpansions : Obligations.PseudoOperationsAreTheirExpansions :=
  ⟨fun s c p => ⟨_, State.complete_eq s _ _, (execWtp_eq_runOps c p s).symm⟩,
    fun s p => ⟨_, State.complete_eq s _ _, (execWep_eq_runOps p s).symm⟩,
    fun s k => ⟨_, State.complete_eq s _ _, exec_tick_ofNat (by omega) s⟩,
    fun s k => ⟨_, State.complete_eq s _ _, exec_tick_ofNat (by omega) s⟩⟩

/-! ### SAMPLE (R233, R270) -/

/-- Settles O33: the triple is the three channels', and the mean is MIX_SUM's. -/
theorem sampleReturnsTripleAndMean : Obligations.SampleReturnsTripleAndMean := fun s =>
  ⟨exec_sample s, State.answer_of_eq (congrArg Reply.number (mixSum_eq_mean_pcm s.psg))⟩

/-- An inactive channel contributes 0 and an active one an entry of the table. -/
theorem mixChannel_mem_range {vol : VolumeTable} (hnonneg : ∀ l, 0 ≤ vol l) (hmax : ∀ l, vol l ≤ vol 15) (p : Psg)
    (c : Channel) : 0 ≤ mixChannel vol p c ∧ mixChannel vol p c ≤ vol 15 := by
  rw [mixChannel]
  split
  · exact ⟨hnonneg _, hmax _⟩
  · exact ⟨le_rfl, hnonneg 15⟩

/-- Settles O34: the mean of three numbers lies in the range they lie in. -/
theorem sampleLiesBelowTheLargestEntry : Obligations.SampleLiesBelowTheLargestEntry := by
  intro vol p hnonneg hmax
  obtain ⟨hA, hA'⟩ := mixChannel_mem_range hnonneg hmax p .A
  obtain ⟨hB, hB'⟩ := mixChannel_mem_range hnonneg hmax p .B
  obtain ⟨hC, hC'⟩ := mixChannel_mem_range hnonneg hmax p .C
  rw [mixSum]
  constructor <;> linarith

end Sys2Proof.Machine
end

