-- ==== Sys2Proof/Proofs/ToneCycle.lean ====
section
/-! The updates of the tone and noise generators (spec/41_tone.md, spec/42_noise.md), and a tone's closed form. -/

namespace Sys2Proof.Machine

/-! ### One update (R141, R161) -/

theorem sub_one_eq_ofNat {w : Nat} {v : BitVec w} (hw : 0 < w) (h : ¬ v.toNat ≤ 1) :
    v - 1 = BitVec.ofNat w (v.toNat - 1) := by
  have hone : (1 : BitVec w).toNat = 1 := Nat.mod_eq_of_lt (Nat.one_lt_two_pow_iff.mpr hw.ne')
  have hlt := v.isLt
  apply BitVec.eq_of_toNat_eq
  rw [BitVec.toNat_sub_of_le (BitVec.le_def.mpr (by omega)), hone, BitVec.toNat_ofNat, Nat.mod_eq_of_lt (by omega)]

theorem Tone.update_eq (t : Tone) :
    t.update =
      if t.counter.toNat ≤ 1 then { out := !t.out, counter := t.period, period := t.period }
      else { t with counter := BitVec.ofNat 12 (t.counter.toNat - 1) } := by
  split
  · next h => exact Tone.update_fires h
  · next h => rw [Tone.update_counts h, sub_one_eq_ofNat (by decide) h]

theorem Noise.update_eq (n : Noise) :
    n.update =
      if n.counter.toNat ≤ 1 then
        { lfsr := lfsrStep n.lfsr, out := (lfsrStep n.lfsr).toNat.testBit 0, counter := n.period, period := n.period }
      else { n with counter := BitVec.ofNat 5 (n.counter.toNat - 1) } := by
  split
  · next h => rw [Noise.update_fires h, BitVec.testBit_toNat]
  · next h => rw [Noise.update_counts h, sub_one_eq_ofNat (by decide) h]

/-- Settles O16: the generator's update, written on the counter as a number. -/
theorem toneAndNoiseUpdateRules : Obligations.ToneAndNoiseUpdateRules := fun s c =>
  ⟨State.complete_of_eq (by rw [updateTone, Tone.update_eq]),
   State.complete_of_eq (by rw [updateNoise, Noise.update_eq])⟩

/-! ### The closed form of a tone -/

/-- The number of updates up to and with the next one that fires. -/
def Tone.wait (t : Tone) : Nat := max 1 t.counter.toNat

/-- How far a tone is into its period. -/
def Tone.phase (t : Tone) : Nat := t.period.toNat - t.wait

theorem Tone.period_pos {t : Tone} (hp : t.period ≠ 0) : 0 < t.period.toNat :=
  Nat.pos_of_ne_zero fun e => hp (BitVec.eq_of_toNat_eq (by simpa using e))

theorem Tone.phase_lt {t : Tone} (hp : t.period ≠ 0) : t.phase < t.period.toNat :=
  Nat.sub_lt (Tone.period_pos hp) (le_max_left 1 _)

theorem Tone.update_of_wait_one {t : Tone} (h : t.wait = 1) (hp : t.period ≠ 0) :
    t.update.out = (!t.out) ∧ t.update.wait = t.period.toNat := by
  have hfires : t.counter.toNat ≤ 1 := by rw [Tone.wait] at h; omega
  rw [Tone.update_fires hfires]
  exact ⟨rfl, max_eq_right (Tone.period_pos hp)⟩

theorem Tone.update_of_one_lt_wait {t : Tone} (h : 1 < t.wait) : t.update.out = t.out ∧ t.update.wait = t.wait - 1 := by
  have hcounts : ¬ t.counter.toNat ≤ 1 := by rw [Tone.wait] at h; omega
  have hlt := t.counter.isLt
  rw [Tone.update_counts hcounts, sub_one_eq_ofNat (by decide) hcounts, Tone.wait, Tone.wait]
  refine ⟨rfl, ?_⟩
  simp only [BitVec.toNat_ofNat]
  rw [Nat.mod_eq_of_lt (by omega)]
  omega

/-- An update inverts the output exactly when it fires. -/
theorem Tone.update_out (t : Tone) (hp : t.period ≠ 0) : t.update.out = (t.out ^^ decide (t.wait = 1)) := by
  have hpos : 1 ≤ t.wait := le_max_left _ _
  by_cases h : t.wait = 1
  · rw [(Tone.update_of_wait_one h hp).1]
    simp [h]
  · rw [(Tone.update_of_one_lt_wait (by omega)).1]
    simp [h]

@[simp] theorem Tone.iterate_update_period (t : Tone) (k : Nat) : (Tone.update^[k] t).period = t.period := by
  induction k with
  | zero => rfl
  | succ k ih => rw [Function.iterate_succ_apply', Tone.update_period, ih]

/-- One more than `n` starts a new block of `d` or stays in the block of `n`. -/
theorem succ_div_mod {d : Nat} (n : Nat) (hd : 0 < d) :
    (n % d + 1 = d ∧ (n + 1) / d = n / d + 1 ∧ (n + 1) % d = 0) ∨
      (n % d + 1 < d ∧ (n + 1) / d = n / d ∧ (n + 1) % d = n % d + 1) := by
  have hlt := Nat.mod_lt n hd
  have hsplit := Nat.mod_add_div n d
  obtain h | h : n % d + 1 = d ∨ n % d + 1 < d := by omega
  · exact .inl ⟨h, (Nat.div_mod_unique hd).mpr ⟨by rw [Nat.mul_succ]; omega, hd⟩⟩
  · exact .inr ⟨h, (Nat.div_mod_unique hd).mpr ⟨by omega, h⟩⟩

theorem decide_odd_succ (n : Nat) : decide ((n + 1) % 2 = 1) = !decide (n % 2 = 1) := by
  rw [← decide_not, decide_eq_decide]
  omega

section
variable {t : Tone} (hp : t.period ≠ 0) (hw : t.wait ≤ t.period.toNat)

include hp hw

theorem Tone.iterate_update_wait (k : Nat) :
    (Tone.update^[k] t).wait = t.period.toNat - (t.phase + k) % t.period.toNat := by
  have hpos : 1 ≤ t.wait := le_max_left _ _
  have hperiod := Tone.period_pos hp
  induction k with
  | zero =>
    have hphase := Tone.phase_lt hp
    rw [Nat.add_zero, Nat.mod_eq_of_lt hphase, Tone.phase]
    exact (Nat.sub_sub_self hw).symm
  | succ k ih =>
    rw [Function.iterate_succ_apply', ← Nat.add_assoc]
    obtain ⟨hlast, -, hmod⟩ | ⟨hlast, -, hmod⟩ := succ_div_mod (t.phase + k) hperiod
    · rw [(Tone.update_of_wait_one (by omega) (by rwa [Tone.iterate_update_period])).2, Tone.iterate_update_period,
        hmod, Nat.sub_zero]
    · rw [(Tone.update_of_one_lt_wait (by omega)).2, ih, hmod]
      omega

/-- The update after `k` fires when it completes a period. -/
theorem Tone.iterate_update_succ_out (k : Nat) :
    (Tone.update^[k + 1] t).out =
      ((Tone.update^[k] t).out ^^ decide ((t.phase + k) % t.period.toNat + 1 = t.period.toNat)) := by
  have hmod := Nat.mod_lt (t.phase + k) (Tone.period_pos hp)
  have hfires : (Tone.update^[k] t).wait = 1 ↔ (t.phase + k) % t.period.toNat + 1 = t.period.toNat := by
    rw [Tone.iterate_update_wait hp hw]
    omega
  rw [Function.iterate_succ_apply', Tone.update_out _ (by rwa [Tone.iterate_update_period])]
  simp only [hfires]

theorem Tone.iterate_update_out (k : Nat) :
    (Tone.update^[k] t).out = (t.out ^^ decide ((t.phase + k) / t.period.toNat % 2 = 1)) := by
  have hperiod := Tone.period_pos hp
  induction k with
  | zero =>
    have hphase := Tone.phase_lt hp
    simp [Nat.div_eq_of_lt hphase]
  | succ k ih =>
    rw [Tone.iterate_update_succ_out hp hw, ih, Bool.xor_assoc, ← Nat.add_assoc]
    congr 1
    obtain ⟨hlast, hdiv, -⟩ | ⟨hlast, hdiv, -⟩ := succ_div_mod (t.phase + k) hperiod
    · rw [hdiv, decide_odd_succ, decide_eq_true hlast, Bool.xor_true]
    · rw [hdiv, decide_eq_false hlast.ne, Bool.xor_false]

theorem Tone.iterate_update_flips (k : Nat) :
    ((Tone.update^[k + 1] t).out != (Tone.update^[k] t).out) =
      decide ((t.phase + k) % t.period.toNat + 1 = t.period.toNat) := by
  rw [Tone.iterate_update_succ_out hp hw, Bool.bne_eq_xor, Bool.xor_right_comm, Bool.xor_self, Bool.false_xor]

/-- A tone flips once for each period that the updates complete. -/
theorem Tone.flips_eq (n : Nat) :
    ((List.range n).filter fun k => (Tone.update^[k + 1] t).out != (Tone.update^[k] t).out).length
      = (t.phase + n) / t.period.toNat := by
  have hperiod := Tone.period_pos hp
  induction n with
  | zero =>
    have hphase := Tone.phase_lt hp
    simp [Nat.div_eq_of_lt hphase]
  | succ n ih =>
    rw [List.range_succ, List.filter_append, List.length_append, ih, ← Nat.add_assoc,
      List.filter_singleton, Tone.iterate_update_flips hp hw]
    obtain ⟨hlast, hdiv, -⟩ | ⟨hlast, hdiv, -⟩ := succ_div_mod (t.phase + n) hperiod
    · rw [hdiv, decide_eq_true hlast]
      rfl
    · rw [hdiv, decide_eq_false hlast.ne]
      rfl

end

/-- Settles O17: 2P updates complete two periods. -/
theorem twoPeriodsFlipTheToneTwice : Obligations.TwoPeriodsFlipTheToneTwice := by
  intro t hp hc
  have hperiod := Tone.period_pos hp
  have hw : t.wait ≤ t.period.toNat := max_le hperiod hc
  have hdiv : (t.phase + 2 * t.period.toNat) / t.period.toNat = 2 := by
    rw [Nat.add_mul_div_right _ _ hperiod, Nat.div_eq_of_lt (Tone.phase_lt hp)]
  refine ⟨?_, ?_⟩
  · rw [Tone.iterate_update_out hp hw, hdiv]
    simp
  · rw [Tone.flips_eq hp hw, hdiv]

/-! ### After RESET and a period (R148) -/

theorem Tone.update_counter_ne_zero {t : Tone} (hp : t.period ≠ 0) : t.update.counter.toNat ≠ 0 := by
  by_cases h : t.counter.toNat ≤ 1
  · rw [Tone.update_fires h]
    exact (Tone.period_pos hp).ne'
  · have hlt := t.counter.isLt
    rw [Tone.update_counts h, sub_one_eq_ofNat (by decide) h]
    simp only [BitVec.toNat_ofNat]
    rw [Nat.mod_eq_of_lt (by omega)]
    omega

/-- R148, from a tone at rest: the first update fires. -/
theorem Tone.closed_form {t : Tone} (hp : t.period ≠ 0) (hcounter : t.counter = 0) (hout : t.out = false) (j : Nat) :
    (Tone.update^[j + 1] t).out = decide (j / t.period.toNat % 2 = 0) ∧
      (Tone.update^[j + 1] t).counter.toNat = t.period.toNat - j % t.period.toNat := by
  have hperiod := Tone.period_pos hp
  have hwait : t.wait = 1 := by rw [Tone.wait, hcounter]; rfl
  have hphase : t.phase + (j + 1) = j + t.period.toNat := by rw [Tone.phase, hwait]; omega
  have hw : t.wait ≤ t.period.toNat := hwait.trans_le hperiod
  constructor
  · rw [Tone.iterate_update_out hp hw, hphase, Nat.add_div_right _ hperiod, hout, Bool.false_xor, decide_odd_succ,
      ← decide_not, decide_eq_decide]
    omega
  · have hpos : (Tone.update^[j + 1] t).counter.toNat ≠ 0 := by
      rw [Function.iterate_succ_apply']
      exact Tone.update_counter_ne_zero (by rwa [Tone.iterate_update_period])
    have hcount : (Tone.update^[j + 1] t).wait = (Tone.update^[j + 1] t).counter.toNat :=
      max_eq_right (Nat.pos_of_ne_zero hpos)
    rw [← hcount, Tone.iterate_update_wait hp hw, hphase, Nat.add_mod_right]

/-- The two writes of a period leave the channel's counter and output, and set the period from both bytes. -/
theorem writePair_tone (c : Channel) (fine coarse : Byte) (p : Psg) :
    (writeCell (coarseReg c) coarse (writeCell (fineReg c) fine p)).tone c =
      { p.tone c with period := clamp1 (lowNibble coarse ++ fine) } := by
  rw [writeCell_coarse, Psg.setTone_tone_same, writeCell_fine, Psg.setTone_tone_same, Psg.setTone_reg,
    Psg.setReg_reg_same]

/-- The bytes that hold a period are put together again (R93). -/
theorem clamp1_period_bytes {p : Nat} (hpos : 1 ≤ p) (hle : p ≤ 4095) :
    (clamp1 (lowNibble (BitVec.ofNat 8 (p >>> 8)) ++ BitVec.ofNat 8 (p &&& 0xFF) : BitVec 12)).toNat = p := by
  have hlow : (p &&& 0xFF) = p % 2 ^ 8 := Nat.and_two_pow_sub_one_eq_mod p 8
  have hnibble : ∀ n, (n &&& 0xF) = n % 2 ^ 4 := fun n => Nat.and_two_pow_sub_one_eq_mod n 4
  rw [clamp1_toNat (by decide), BitVec.toNat_append, lowNibble_toNat, hnibble, hlow,
    ← Nat.shiftLeft_add_eq_or_of_lt (BitVec.isLt _), BitVec.toNat_ofNat, BitVec.toNat_ofNat, Nat.shiftLeft_eq,
    Nat.shiftRight_eq_div_pow]
  omega

/-- From mclk 0 the 16k cycles are k updates of channel A, which is at rest with the period written. -/
theorem runOps_reset_period_tick (s : State) (fine coarse : Byte) {k : Nat} (hk : 16 * k < 2 ^ 64) :
    ∃ t, runOps [.reset, .writeR0 fine, .writeR1 coarse, .tick (.unsigned (BitVec.ofNat 64 (16 * k)))] s = .next t ∧
      t.psg.toneA = Tone.update^[k] { Tone.atReset with period := clamp1 (lowNibble coarse ++ fine) } := by
  refine ⟨_, (runOps_cons (exec_reset s)).trans ((runOps_cons rfl).trans ((runOps_cons rfl).trans
    (runOps_cons (exec_tick_ofNat hk _)))), ?_⟩
  have htone := writePair_tone .A fine coarse Psg.atReset
  have hmclk : (writeCell (coarseReg .A) coarse (writeCell (fineReg .A) fine Psg.atReset)).mclk.toNat = 0 := by
    rw [writeCell_mclk, writeCell_mclk]
    rfl
  have hrun := runCycles_tone (16 * k) (writeCell (coarseReg .A) coarse (writeCell (fineReg .A) fine Psg.atReset)) .A
  have hupdates : updatesBetween 16 0 (16 * k) = k := by rw [updatesBetween]; omega
  rw [hmclk, hupdates, htone] at hrun
  exact hrun

/-- Settles O18: the closed form of a tone at rest. -/
theorem toneClosedFormAfterReset : Obligations.ToneClosedFormAfterReset := by
  intro s p k hpos hle hk hlt
  obtain ⟨j, rfl⟩ : ∃ j, k = j + 1 := ⟨k - 1, by omega⟩
  obtain ⟨t, ht, htone⟩ := runOps_reset_period_tick s (BitVec.ofNat 8 (p &&& 0xFF)) (BitVec.ofNat 8 (p >>> 8)) hlt
  have hform := Tone.closed_form (t := { Tone.atReset with
    period := clamp1 (lowNibble (BitVec.ofNat 8 (p >>> 8)) ++ BitVec.ofNat 8 (p &&& 0xFF)) })
    (clamp1_ne_zero (by decide) _) rfl rfl j
  rw [← htone, clamp1_period_bytes hpos hle] at hform
  exact ⟨t, ht, hform⟩

end Sys2Proof.Machine
end

