-- ==== Sys2Proof/Proofs/EnvelopeCycle.lean ====
section
/-! ENV_STEP and ENV_UPDATE (spec/43_envelope.md), and the level sequences of the shape codes (spec/30_encoding.md
section 4): sixteen positions along a ramp, then the boundary event of the code. -/

namespace Sys2Proof.Machine

/-! ### One step, arm by arm (R183) -/

section
variable {flip : Bool} {e : Env}

theorem Env.step_of_rising (hh : e.holding = false) (ha : e.attacking = true) (hl : e.level.toNat < 15) :
    e.step flip = { e with level := BitVec.ofNat 4 (e.level.toNat + 1) } := by
  have hlevel : (e.level == 15) = false := by
    rw [beq_eq_false_iff_ne]
    exact fun h => absurd (h ▸ hl) (by decide)
  have hnext : e.level + 1 = BitVec.ofNat 4 (e.level.toNat + 1) := by rw [BitVec.ofNat_add, BitVec.ofNat_toNat]; rfl
  simp only [Env.step, atBoundary, hh, ha, hlevel, hnext, Bool.false_eq_true, if_false, if_true, Bool.and_false,
    Bool.not_true, Bool.false_and, Bool.or_false]

theorem Env.step_of_falling (hh : e.holding = false) (ha : e.attacking = false) (hl : 0 < e.level.toNat) :
    e.step flip = { e with level := BitVec.ofNat 4 (e.level.toNat - 1) } := by
  have hlevel : (e.level == 0) = false := by
    rw [beq_eq_false_iff_ne]
    exact fun h => absurd (h ▸ hl) (by decide)
  have hnext : ∀ l : BitVec 4, 0 < l.toNat → l - 1 = BitVec.ofNat 4 (l.toNat - 1) := by decide
  simp only [Env.step, atBoundary, hh, ha, hlevel, hnext _ hl, Bool.false_eq_true, if_false, Bool.and_false,
    Bool.false_and, Bool.or_false]

theorem Env.step_of_boundary (hh : e.holding = false)
    (hb : (e.attacking = true ∧ e.level = 15) ∨ (e.attacking = false ∧ e.level = 0)) :
    e.step flip = e.boundaryEvent flip := by
  obtain ⟨ha, hl⟩ | ⟨ha, hl⟩ := hb <;> simp [Env.step, atBoundary, hh, ha, hl]

/-- R183, D9: a code without Continue holds, at 0 unless its Hold bit is set. -/
theorem Env.boundaryEvent_of_not_cont (hc : contBit e.shape = false) :
    e.boundaryEvent flip = { e with holding := true, level := if holdBit e.shape then e.level else 0 } := by
  simp [Env.boundaryEvent, hc]

theorem Env.boundaryEvent_of_hold (hc : contBit e.shape = true) (hh : holdBit e.shape = true) :
    e.boundaryEvent flip =
      { e with holding := true, level := if altBit e.shape && flip then 15 - e.level else e.level } := by
  simp [Env.boundaryEvent, hc, hh]

theorem Env.boundaryEvent_of_alt (hc : contBit e.shape = true) (hh : holdBit e.shape = false)
    (ha : altBit e.shape = true) : e.boundaryEvent flip = { e with attacking := !e.attacking } := by
  simp [Env.boundaryEvent, hc, hh, ha]

theorem Env.boundaryEvent_of_cont (hc : contBit e.shape = true) (hh : holdBit e.shape = false)
    (ha : altBit e.shape = false) : e.boundaryEvent flip = { e with level := if e.attacking then 0 else 15 } := by
  simp [Env.boundaryEvent, hc, hh, ha]

/-- With `ENV_HOLD_ALT_FLIP` false a set Hold bit holds where the level is, whatever the other bits. -/
theorem Env.boundaryEvent_false_of_hold (hh : holdBit e.shape = true) :
    e.boundaryEvent false = { e with holding := true } := by
  cases hc : contBit e.shape with
  | false => rw [Env.boundaryEvent_of_not_cont hc, if_pos hh]
  | true => rw [Env.boundaryEvent_of_hold hc hh, Bool.and_false, if_neg Bool.false_ne_true]

end

theorem exec_envStep_of_eq {s : State} {e : Env} (h : s.psg.env.step false = e) :
    exec .envStep s = .next { s with reply := .done, psg := { s.psg with env := e } } := by
  subst h
  rfl

/-- Settles O25: the arms of the step, and those of its boundary event. -/
theorem envelopeStepArms : Obligations.EnvelopeStepArms := by
  intro s
  refine ⟨fun hh => exec_envStep_of_eq (Env.step_holding hh),
    fun hh ha hl => exec_envStep_of_eq (Env.step_of_rising hh ha hl),
    fun hh ha hl => exec_envStep_of_eq (Env.step_of_falling hh ha hl), fun hh hb => ?_⟩
  have hstep := Env.step_of_boundary (flip := false) hh hb
  refine ⟨fun hc hhold => exec_envStep_of_eq (hstep.trans ?_),
    fun hhold => exec_envStep_of_eq (hstep.trans (Env.boundaryEvent_false_of_hold hhold)),
    fun hc hhold halt => exec_envStep_of_eq (hstep.trans (Env.boundaryEvent_of_alt hc hhold halt)),
    fun hc hhold halt => exec_envStep_of_eq (hstep.trans (Env.boundaryEvent_of_cont hc hhold halt))⟩
  have hhold' : holdBit s.psg.env.shape = false := hhold
  rw [Env.boundaryEvent_of_not_cont hc, hhold', if_neg Bool.false_ne_true]

/-- Settles O26: the two arms of the update. -/
theorem envelopeUpdateRule : Obligations.EnvelopeUpdateRule := by
  intro s
  refine ⟨_, exec_envStep_of_eq rfl, fun h => ?_, fun h => ?_⟩
  · exact State.complete_of_eq (by rw [updateEnv, envHoldAltFlip, Env.update_fires h])
  · have hcounts : ¬ s.psg.env.counter.toNat ≤ 1 := by omega
    exact State.complete_of_eq (by rw [updateEnv, Env.update_counts hcounts, sub_one_eq_ofNat (by decide) hcounts])

/-! ### The ramp from a shape write to the boundary (R184) -/

/-- The level at position `k` of a ramp, rising or falling. -/
def rampLevel (rising : Bool) (k : Nat) : BitVec 4 := BitVec.ofNat 4 (if rising then k else 15 - k)

/-- The envelope at position `k` of a ramp. -/
def Env.ramp (e : Env) (rising : Bool) (k : Nat) : Env :=
  { e with level := rampLevel rising k, holding := false, attacking := rising }

theorem rampLevel_toNat (rising : Bool) {k : Nat} (hk : k ≤ 15) :
    (rampLevel rising k).toNat = if rising then k else 15 - k := by
  rw [rampLevel, BitVec.toNat_ofNat, Nat.mod_eq_of_lt (by split <;> omega)]

theorem Env.restart_eq_ramp (e : Env) (shape : BitVec 4) :
    e.restart shape = { e with shape := shape }.ramp (attackBit shape) 0 := by
  rw [Env.restart, Env.ramp]
  cases attackBit shape <;> rfl

section
variable (flip : Bool) (e : Env) (rising : Bool)

theorem Env.step_ramp {k : Nat} (hk : k < 15) : (e.ramp rising k).step flip = e.ramp rising (k + 1) := by
  have hlevel : (e.ramp rising k).level.toNat = if rising then k else 15 - k := rampLevel_toNat rising hk.le
  cases rising with
  | true =>
    rw [Env.step_of_rising rfl rfl (by rw [hlevel]; exact hk), hlevel]
    rfl
  | false =>
    rw [Env.step_of_falling rfl rfl (by rw [hlevel]; exact Nat.sub_pos_of_lt hk), hlevel]
    rfl

theorem Env.iterate_step_ramp {k : Nat} (hk : k ≤ 15) : (Env.step flip)^[k] (e.ramp rising 0) = e.ramp rising k := by
  induction k with
  | zero => rfl
  | succ k ih => rw [Function.iterate_succ_apply', ih (by omega), Env.step_ramp flip e rising (by omega)]

/-- Position 16 is what the boundary event makes of the ramp's end. -/
theorem Env.iterate_step_ramp_sixteen :
    (Env.step flip)^[16] (e.ramp rising 0) = (e.ramp rising 15).boundaryEvent flip := by
  rw [Function.iterate_succ_apply', Env.iterate_step_ramp flip e rising le_rfl]
  cases rising with
  | true => exact Env.step_of_boundary rfl (.inl ⟨rfl, rfl⟩)
  | false => exact Env.step_of_boundary rfl (.inr ⟨rfl, rfl⟩)

end

/-! ### The codes that repeat, and the codes that hold -/

/-- Continue without Hold: sawtooths and triangles. -/
def repeatBit (shape : BitVec 4) : Bool := contBit shape && !holdBit shape

/-- The level at which a code that does not repeat holds. -/
def heldLevel (flip : Bool) (shape : BitVec 4) : BitVec 4 :=
  if !contBit shape then if holdBit shape then rampLevel (attackBit shape) 15 else 0
  else if altBit shape && flip then 15 - rampLevel (attackBit shape) 15 else rampLevel (attackBit shape) 15

section
variable {flip : Bool} {e : Env}

/-- A triangle turns and a sawtooth begins again (R195, R197, R199, R201). -/
theorem Env.boundaryEvent_of_repeat (h : repeatBit e.shape = true) (rising : Bool) :
    (e.ramp rising 15).boundaryEvent flip = e.ramp (rising ^^ altBit e.shape) 0 := by
  have hbits : contBit e.shape = true ∧ holdBit e.shape = false := by simpa [repeatBit] using h
  obtain ⟨hcont, hhold⟩ := hbits
  cases halt : altBit e.shape with
  | true =>
    rw [Env.boundaryEvent_of_alt (e := e.ramp rising 15) hcont hhold halt]
    cases rising <;> rfl
  | false =>
    rw [Env.boundaryEvent_of_cont (e := e.ramp rising 15) hcont hhold halt]
    cases rising <;> rfl

theorem Env.boundaryEvent_of_no_repeat (h : repeatBit e.shape = false) :
    (e.ramp (attackBit e.shape) 15).boundaryEvent flip =
      { e with level := heldLevel flip e.shape, holding := true, attacking := attackBit e.shape } := by
  cases hcont : contBit e.shape with
  | false =>
    rw [Env.boundaryEvent_of_not_cont (e := e.ramp _ 15) hcont, heldLevel, hcont]
    rfl
  | true =>
    have hhold : holdBit e.shape = true := by simpa [repeatBit, hcont] using h
    rw [Env.boundaryEvent_of_hold (e := e.ramp _ 15) hcont hhold, heldLevel, hcont]
    rfl

/-- A code that repeats runs ramp after ramp, a triangle in turning directions. -/
theorem Env.iterate_step_of_repeat (h : repeatBit e.shape = true) (rising : Bool) (q : Nat) {r : Nat} (hr : r ≤ 15) :
    (Env.step flip)^[16 * q + r] (e.ramp rising 0)
      = e.ramp (rising ^^ (altBit e.shape && decide (q % 2 = 1))) r := by
  induction q generalizing rising with
  | zero =>
    rw [Nat.mul_zero, Nat.zero_add, Env.iterate_step_ramp flip e rising hr]
    simp
  | succ q ih =>
    have hsplit : 16 * (q + 1) + r = (16 * q + r) + 16 := by omega
    rw [hsplit, Function.iterate_add_apply, Env.iterate_step_ramp_sixteen, Env.boundaryEvent_of_repeat h, ih,
      decide_odd_succ]
    congr 1
    cases altBit e.shape <;> simp

theorem Env.iterate_step_of_no_repeat (h : repeatBit e.shape = false) {n : Nat} (hn : 16 ≤ n) :
    (Env.step flip)^[n] (e.ramp (attackBit e.shape) 0) =
      { e with level := heldLevel flip e.shape, holding := true, attacking := attackBit e.shape } := by
  obtain ⟨m, rfl⟩ : ∃ m, n = m + 16 := ⟨n - 16, by omega⟩
  rw [Function.iterate_add_apply, Env.iterate_step_ramp_sixteen, Env.boundaryEvent_of_no_repeat h]
  exact Function.iterate_fixed (Env.step_holding rfl) m

end

/-! ### The pictures (R98, R187 to R202) -/

theorem shapeRepeats_eq (code : BitVec 4) : shapeRepeats code.toNat = repeatBit code := by
  revert code; decide

/-- The first sixteen positions of every picture are a ramp in the Attack bit's direction. -/
theorem picture_ramp (flip : Bool) (code : BitVec 4) {n : Nat} (hn : n < 16) :
    shapeLevel flip code.toNat n = (rampLevel (attackBit code) n).toNat ∧ shapeRises code.toNat n = attackBit code := by
  have hall : ∀ (flip : Bool) (code : BitVec 4) (n : Fin 16),
      shapeLevel flip code.toNat n = (rampLevel (attackBit code) n).toNat ∧
        shapeRises code.toNat n = attackBit code := by decide +kernel
  exact hall flip code ⟨n, hn⟩

theorem repeating_codes {code : BitVec 4} (h : repeatBit code = true) :
    code = 0x8 ∨ code = 0xA ∨ code = 0xC ∨ code = 0xE := by
  revert code; decide

theorem holding_codes {code : BitVec 4} (h : repeatBit code = false) :
    code = 0x0 ∨ code = 0x1 ∨ code = 0x2 ∨ code = 0x3 ∨ code = 0x4 ∨ code = 0x5 ∨ code = 0x6 ∨ code = 0x7 ∨
      code = 0x9 ∨ code = 0xB ∨ code = 0xD ∨ code = 0xF := by
  revert code; decide

theorem picture_repeat (flip : Bool) {code : BitVec 4} (h : repeatBit code = true) (q : Nat) {r : Nat} (hr : r ≤ 15) :
    shapeLevel flip code.toNat (16 * q + r) =
        (rampLevel (attackBit code ^^ (altBit code && decide (q % 2 = 1))) r).toNat ∧
      shapeRises code.toNat (16 * q + r) = (attackBit code ^^ (altBit code && decide (q % 2 = 1))) := by
  have hblock : (16 * q + r) / 16 = q := by omega
  have hsawtooth : (16 * q + r) % 16 = r := by omega
  have htriangle : (16 * q + r) % 32 = 16 * (q % 2) + r := by omega
  have hturned : ¬ 16 + r ≤ 15 := by omega
  have hfalling : 31 - (16 + r) = 15 - r := by omega
  rw [rampLevel_toNat _ hr]
  obtain rfl | rfl | rfl | rfl := repeating_codes h
  · simp only [shapeLevel, hsawtooth]
    exact ⟨rfl, rfl⟩
  · obtain hq | hq := Nat.mod_two_eq_zero_or_one q <;>
      simp [shapeLevel, shapeRises, altBit, attackBit, hblock, htriangle, hturned, hq, hr]
  · simp only [shapeLevel, hsawtooth]
    exact ⟨rfl, rfl⟩
  · obtain hq | hq := Nat.mod_two_eq_zero_or_one q <;>
      simp [shapeLevel, shapeRises, altBit, attackBit, hblock, htriangle, hturned, hfalling, hq, hr]

theorem picture_hold (flip : Bool) {code : BitVec 4} (h : repeatBit code = false) {n : Nat} (hn : 16 ≤ n) :
    shapeLevel flip code.toNat n = (heldLevel flip code).toNat ∧ shapeRises code.toNat n = attackBit code := by
  have hmin : min n 15 = 15 := by omega
  have hbeyond : ¬ n ≤ 15 := by omega
  obtain rfl | rfl | rfl | rfl | rfl | rfl | rfl | rfl | rfl | rfl | rfl | rfl := holding_codes h
  all_goals
    refine ⟨?_, rfl⟩
    cases flip <;> simp [shapeLevel, hmin, hn, hbeyond, heldLevel, contBit, holdBit, altBit, attackBit, rampLevel]

/-- Settles O27: up to position 15 the code's ramp; then a code that repeats runs ramp after ramp, and any other holds
at its level. -/
theorem shapeCodesFollowTheirPictures : Obligations.ShapeCodesFollowTheirPictures := by
  intro flip e code n
  rw [Env.restart_eq_ramp, shapeRepeats_eq]
  cases h : repeatBit code with
  | true =>
    have hr : n % 16 ≤ 15 := by omega
    obtain ⟨hlevel, hrises⟩ := picture_repeat flip h (n / 16) hr
    have hrun :=
      Env.iterate_step_of_repeat (flip := flip) (e := { e with shape := code }) h (attackBit code) (n / 16) hr
    rw [Nat.div_add_mod] at hlevel hrises hrun
    rw [hrun, hlevel, hrises]
    exact ⟨rfl, rfl, rfl, rfl⟩
  | false =>
    by_cases hn : n < 16
    · obtain ⟨hlevel, hrises⟩ := picture_ramp flip code hn
      have hbefore : decide (16 ≤ n) = false := decide_eq_false (by omega)
      rw [Env.iterate_step_ramp _ _ _ (by omega), hlevel, hrises, hbefore]
      exact ⟨rfl, rfl, rfl, rfl⟩
    · have hbeyond : 16 ≤ n := by omega
      obtain ⟨hlevel, hrises⟩ := picture_hold flip h hbeyond
      have hrun := Env.iterate_step_of_no_repeat (flip := flip) (e := { e with shape := code }) h hbeyond
      rw [hrun, hlevel, hrises, decide_eq_true hbeyond]
      exact ⟨rfl, rfl, rfl, rfl⟩

/-! ### Updates (R182) -/

/-- A step reads no counter. -/
theorem Env.step_setCounter (flip : Bool) (e : Env) (c : BitVec 16) :
    Env.step flip { e with counter := c } = { e.step flip with counter := c } := by
  simp only [Env.step, atBoundary, Env.boundaryEvent]
  split_ifs <;> rfl

/-- Until the running count is used up the updates only count (R328). -/
theorem Env.iterate_update_counts (flip : Bool) (e : Env) {n : Nat} (hn : n < max 1 e.counter.toNat) :
    ∃ c : BitVec 16, (Env.update flip)^[n] e = { e with counter := c } ∧
      max 1 c.toNat + n = max 1 e.counter.toNat := by
  induction n with
  | zero => exact ⟨e.counter, rfl, rfl⟩
  | succ n ih =>
    obtain ⟨c, hrun, hcount⟩ := ih (by omega)
    have hcounts : ¬ c.toNat ≤ 1 := by omega
    have hlt := c.isLt
    have hnext : (BitVec.ofNat 16 (c.toNat - 1)).toNat = c.toNat - 1 := by
      rw [BitVec.toNat_ofNat, Nat.mod_eq_of_lt (by omega)]
    refine ⟨BitVec.ofNat 16 (c.toNat - 1), ?_, by omega⟩
    rw [Function.iterate_succ_apply', hrun, Env.update_counts (e := { e with counter := c }) hcounts,
      ← sub_one_eq_ofNat (by decide) hcounts]

/-- The update that uses it up is the first to step. -/
theorem Env.iterate_update_first_step (flip : Bool) (e : Env) :
    (Env.update flip)^[max 1 e.counter.toNat] e = { e.step flip with counter := e.period } := by
  obtain ⟨m, hm⟩ : ∃ m, max 1 e.counter.toNat = m + 1 := ⟨max 1 e.counter.toNat - 1, by omega⟩
  obtain ⟨c, hrun, hcount⟩ := Env.iterate_update_counts flip e (show m < max 1 e.counter.toNat by omega)
  have hfires : c.toNat ≤ 1 := by omega
  rw [hm, Function.iterate_succ_apply', hrun, Env.update_fires (e := { e with counter := c }) hfires,
    Env.step_setCounter]

/-- R328: a ramp begins with the running count, and the first step goes to its position 1. -/
theorem Env.iterate_update_ramp_level (flip : Bool) (e : Env) (rising : Bool) {n : Nat}
    (hn : n ≤ max 1 e.counter.toNat) :
    ((Env.update flip)^[n] (e.ramp rising 0)).level.toNat =
      if n < max 1 e.counter.toNat then (if rising then 0 else 15) else (if rising then 1 else 14) := by
  split
  · next h =>
    obtain ⟨c, hrun, -⟩ := Env.iterate_update_counts flip (e.ramp rising 0) h
    rw [hrun]
    exact rampLevel_toNat rising (by decide)
  · next h =>
    obtain rfl : n = max 1 (e.ramp rising 0).counter.toNat := le_antisymm hn (Nat.not_lt.mp h)
    rw [Env.iterate_update_first_step, Env.step_ramp _ _ _ (by decide)]
    exact rampLevel_toNat rising (by decide)

theorem runOps_replicate_envUpdate (n : Nat) (s : State) :
    ∃ t, runOps (List.replicate n .envUpdate) s = .next t ∧
      t.psg.env = (Env.update envHoldAltFlip)^[n] s.psg.env := by
  induction n generalizing s with
  | zero => exact ⟨s, rfl, rfl⟩
  | succ n ih =>
    obtain ⟨t, ht, henv⟩ := ih { s with psg := updateEnv s.psg, reply := .done }
    exact ⟨t, (runOps_cons rfl).trans ht, henv⟩

/-- Settles O30: the write starts a ramp and leaves the counter. -/
theorem firstShapeStepWaitsForTheRunningCount : Obligations.FirstShapeStepWaitsForTheRunningCount := by
  intro s v n hn
  obtain ⟨t, ht, henv⟩ := runOps_replicate_envUpdate n { s with psg := writeCell 13 v s.psg, reply := .done }
  refine ⟨t, (runOps_cons rfl).trans ht, ?_⟩
  have hstart : (writeCell 13 v s.psg).env = { s.psg.env with shape := lowNibble v }.ramp (v.toNat.testBit 2) 0 := by
    rw [writeCell_thirteen, Env.restart_eq_ramp, attackBit_lowNibble]
  rw [henv, hstart]
  exact Env.iterate_update_ramp_level _ _ _ hn

theorem Env.iterate_step_period (flip : Bool) (e : Env) (k : Nat) : ((Env.step flip)^[k] e).period = e.period := by
  induction k with
  | zero => rfl
  | succ k ih => rw [Function.iterate_succ_apply', Env.step_period, ih]

/-- With a period of 1 every update steps. -/
theorem Env.iterate_update_of_period_one (flip : Bool) {e : Env} (hp : e.period = 1) (hc : e.counter.toNat ≤ 1)
    (k : Nat) : ∃ c : BitVec 16, c.toNat ≤ 1 ∧
      (Env.update flip)^[k] e = { (Env.step flip)^[k] e with counter := c } := by
  induction k with
  | zero => exact ⟨e.counter, hc, rfl⟩
  | succ k ih =>
    obtain ⟨c, hc, hrun⟩ := ih
    have hperiod : ((Env.step flip)^[k] e).period = 1 := (Env.iterate_step_period flip e k).trans hp
    refine ⟨1, by decide, ?_⟩
    rw [Function.iterate_succ_apply', hrun, Env.update_fires (e := { (Env.step flip)^[k] e with counter := c }) hc,
      Env.step_setCounter, Function.iterate_succ_apply']
    simp only [hperiod]

/-- The reset envelope is the falling one-shot of code 0 (R325). -/
theorem Env.atReset_eq_restart : Env.atReset = Env.atReset.restart 0 := by decide

/-- Settles O31: from mclk 0 EU k is k updates, each a step of the one-shot that the reset envelope is. -/
theorem envelopeFadesOutAfterReset : Obligations.EnvelopeFadesOutAfterReset := by
  intro s k
  refine ⟨_, (runOps_cons (exec_reset s)).trans (runOps_cons rfl), ?_⟩
  have hupdates : updatesBetween 256 0 (256 * k.toNat) = k.toNat := by rw [updatesBetween]; omega
  have hrun : (runCycles (256 * k.toNat) Psg.atReset).env =
      (Env.update envHoldAltFlip)^[updatesBetween 256 0 (256 * k.toNat)] Env.atReset := runCycles_env _ _
  obtain ⟨c, -, hsteps⟩ := Env.iterate_update_of_period_one envHoldAltFlip (e := Env.atReset) rfl (by decide) k.toNat
  obtain ⟨hlevel, hholding, hattacking, hshape⟩ := shapeCodesFollowTheirPictures envHoldAltFlip Env.atReset 0 k.toNat
  rw [← Env.atReset_eq_restart] at hlevel hholding hattacking hshape
  rw [hupdates, hsteps] at hrun
  simp only [hrun]
  exact ⟨hlevel, hholding, hattacking, hshape⟩

end Sys2Proof.Machine
end
